-- ==== Sys2Proof/Word.lean ====
section
/-! DEFINITION. The word and byte types of the engine (00_scope.md R2, 20_memory.md R60). -/

namespace Sys2Proof

/-- `WORD` = 32: "Every architectural word of the engine is 32 bits wide" (R2).
Addition of words is `BitVec` addition, which is addition mod 2^32 with no carry kept (R10). -/
abbrev Word := BitVec 32

/-- One unit of the data memory, 8 bits (R60). -/
abbrev Byte := BitVec 8

end Sys2Proof
end

