-- ==== Sys2Proof/Config.lean ====
section
/-! DEFINITION. The implementation parameters of 00_scope.md section 4, and the free values: what the
spec leaves unspecified, each an uninterpreted constant without a body. -/

namespace Sys2Proof

/-- The parameters an implementation fixes (R5, R6, R7).
They stand in `State` as data that no step changes, so a statement about every state is a statement
about every implementation. -/
structure Params where
  /-- `MEM_BYTES` (R5): the data memory holds the addresses 0 to `memBytes` - 1. -/
  memBytes : Nat
  /-- `PADBUF_BYTES` (R6): the padded buffer's capacity in bytes; `none` is `UNBOUNDED`. -/
  padBuf : Option Nat
  /-- `REG_BASE` (R7): the platform address of offset 0 of the register window. -/
  regBase : Nat
  deriving DecidableEq, Repr

namespace Config

/-- Open parameter behind `MEM_BYTES`: any natural number (log entry 1). -/
opaque rawMemBytes : Nat

/-- Open parameter behind `PADBUF_BYTES`: unbounded, or any natural number (log entry 1). -/
opaque rawPadBuf : Option Nat

/-- Open parameter `REG_BASE` (R7; log entry 1). -/
opaque rawRegBase : Nat

/-- The parameters of the machine that `State.reset` describes: every value R5 to R7 allow, and no
other. `memBytes` ranges over 1 to 2^32, `padBuf` over `none` and the multiples of 64 from 128 up. -/
def params : Params where
  memBytes := rawMemBytes % 2 ^ 32 + 1
  padBuf := rawPadBuf.map fun n => 64 * (n + 2)
  regBase := rawRegBase

/-! The free values. The first argument is the number of the draw (`State.draws`), so two draws may
differ; a second argument tells the items of one draw apart. -/

/-- U1, R47: what a host read of `V0`..`V7` or `OUT_LEN` returns while BUSY = 1. -/
opaque busyWord : Nat → Word

/-- U5, R240: what a host read of a byte of the destination range returns while BUSY = 1. -/
opaque busyByte : Nat → Nat → Byte

/-- U2, R231: a byte of the destination range of a command that reset abandoned. -/
opaque abandonedByte : Nat → Nat → Byte

/-- U3, R240: a chaining word of a command whose input the host wrote while BUSY = 1. -/
opaque racedWord : Nat → Nat → Word

/-- U3, R240: an output byte of a command whose input the host wrote while BUSY = 1. -/
opaque racedByte : Nat → Nat → Byte

/-- U4, R240: whether a destination byte that both agents wrote keeps the host's value. -/
opaque hostWins : Nat → Nat → Bool

/-- What `OUT_LEN` holds after a command that wrote 2^32 bytes or more, a number its 32 bits do not
hold: the spec states no result there (log entry 8). -/
opaque wideOutLen : Nat → Word

/-- U9: a word of the internal state while idle and after reset. -/
opaque idleWord : Nat → Nat → Word

/-- U9: a byte of the internal state while idle and after reset. -/
opaque idleByte : Nat → Nat → Byte

/-- U9: a counter or a length of the internal state while idle and after reset. -/
opaque idleNat : Nat → Nat → Nat

end Config

end Sys2Proof
end

