-- ==== Sys2Proof/Machine/Memory.lean ====
section
/-! DEFINITION. The data memory (20_memory.md R60 to R63): a list of (address, byte) pairs in one
canonical form. -/

namespace Sys2Proof.Machine

/-- The data memory: addresses strictly rising, and no entry equal to what an unlisted address reads
as (`Memory.wf`). -/
abbrev Memory := List Host.Cell

/-- What a byte that nothing has written reads as. "The initial value is given by the host's launch
state, not by this hardware" (R61): a launch state lists its bytes, and 0 for the rest is the model's
choice (log entry 2, DESIGN CHOICE). -/
def Memory.launchByte : Byte := 0

/-- `Mem[a]`. "A read has no side effect" (R61). -/
def Memory.read : Memory → Nat → Byte
  | [], _ => Memory.launchByte
  | (k, b) :: rest, a => if k = a then b else Memory.read rest a

/-- The memory after `Mem[a] <- b`, in canonical form. -/
def Memory.write : Memory → Nat → Byte → Memory
  | [], a, b => if b = Memory.launchByte then [] else [(a, b)]
  | (k, c) :: rest, a, b =>
    if a < k then
      if b = Memory.launchByte then (k, c) :: rest else (a, b) :: (k, c) :: rest
    else if a = k then
      if b = Memory.launchByte then rest else (a, b) :: rest
    else (k, c) :: Memory.write rest a b

/-- `MemRead(addr, n)`: `Mem[addr] || ... || Mem[addr+n-1]`, "with no reordering" (R62). -/
def Memory.readBytes (m : Memory) (addr n : Nat) : List Byte :=
  (List.range n).map fun i => m.read (addr + i)

/-- `MemWrite(addr, n, s)`: `Mem[addr+i] <- s[i]` (R63). -/
def Memory.writeBytes : Memory → Nat → List Byte → Memory
  | m, _, [] => m
  | m, addr, b :: s => Memory.writeBytes (m.write addr b) (addr + 1) s

/-- Every address of the list is above `lo`, and they rise strictly. -/
def Memory.risingFrom : Nat → Memory → Bool
  | _, [] => true
  | lo, (k, _) :: rest => decide (lo ≤ k) && Memory.risingFrom (k + 1) rest

/-- The canonical form, so that equal memories are equal lists. -/
def Memory.wf (m : Memory) : Bool :=
  m.risingFrom 0 && m.all fun c => decide (c.2 ≠ Memory.launchByte)

/-- Every listed address is one of the addresses 0 to `size` - 1 that exist (R60). -/
def Memory.within (m : Memory) (size : Nat) : Bool :=
  m.all fun c => decide (c.1 < size)

end Sys2Proof.Machine
end

