-- ==== Sys2Proof/Machine/Bits.lean ====
section
/-! DEFINITION. Bit and byte-order helpers: rotation, big-endian words, serialization
(00_scope.md R9, R11, R12). -/

namespace Sys2Proof.Machine

/-- `ROTL(x, n)`, with the amount taken mod 32 (R9). -/
def rotl (x : Word) (n : Nat) : Word :=
  if n % 32 = 0 then x else (x <<< (n % 32)) ||| (x >>> (32 - n % 32))

/-- `BE32(s)`: the big-endian word of the first four bytes of `s` (R11). -/
def be32 (s : List Byte) : Word :=
  ((s.getD 0 0).setWidth 32 <<< 24) ||| ((s.getD 1 0).setWidth 32 <<< 16)
    ||| ((s.getD 2 0).setWidth 32 <<< 8) ||| (s.getD 3 0).setWidth 32

/-- `BE32_BYTES(x)`: the four bytes of a word, most significant first (R11). -/
def be32Bytes (x : Word) : List Byte :=
  [x.extractLsb' 24 8, x.extractLsb' 16 8, x.extractLsb' 8 8, x.extractLsb' 0 8]

/-- `BE64_BYTES(v)`: "high word first, then low word" (R11). -/
def be64Bytes (v : BitVec 64) : List Byte :=
  be32Bytes (v.extractLsb' 32 32) ++ be32Bytes (v.extractLsb' 0 32)

/-- A list of words as bytes, each word big-endian (R64). -/
def wordsBytes (ws : List Word) : List Byte := ws.flatMap be32Bytes

/-- `n` bytes of `s` from index `i`: the slice `s[i..i+n)` of 00_scope.md section 5. -/
def slice (s : List Byte) (i n : Nat) : List Byte := (s.drop i).take n

end Sys2Proof.Machine
end

