-- ==== Sys2Proof/Machine/Sm3.lean ====
section
/-! DEFINITION. The SM3 and HMAC-SM3 functions as the spec writes them: padding (40_padder.md),
expansion (41_expander.md), compression (42_compression.md), digest and HMAC (43_digest_driver.md).
They are functions of their arguments alone. The engine computes them in its internal state in
Machine/Engine.lean. -/

namespace Sys2Proof.Machine

/-- Eight words A to H: the HashState `V` (10_state.md R30) and the working registers (R43). -/
structure Words8 where
  a : Word
  b : Word
  c : Word
  d : Word
  e : Word
  f : Word
  g : Word
  h : Word
  deriving DecidableEq, Repr

/-- The eight words in order, A first: `V[0]`, ..., `V[7]`. -/
def Words8.toList (r : Words8) : List Word := [r.a, r.b, r.c, r.d, r.e, r.f, r.g, r.h]

/-- `V[i]` (R30): `V[0]` is word A. -/
def Words8.get (r : Words8) (i : Fin 8) : Word :=
  match i with
  | 0 => r.a
  | 1 => r.b
  | 2 => r.c
  | 3 => r.d
  | 4 => r.e
  | 5 => r.f
  | 6 => r.g
  | 7 => r.h

/-- Word by word exclusive or: the fold at the end of `CF` (42_compression.md R146). -/
def Words8.xor (x y : Words8) : Words8 :=
  ⟨x.a ^^^ y.a, x.b ^^^ y.b, x.c ^^^ y.c, x.d ^^^ y.d,
    x.e ^^^ y.e, x.f ^^^ y.f, x.g ^^^ y.g, x.h ^^^ y.h⟩

/-- `SER(V)`: the 32-byte string of eight words (00_scope.md R12). -/
def ser (v : Words8) : List Byte := wordsBytes v.toList

/-! Constants and round functions -/

/-- The initialization vector `IV[0..7]` (R140). -/
def iv : Words8 :=
  ⟨0x7380166F, 0x4914B2B9, 0x172442D7, 0xDA8A0600,
    0xA96F30BC, 0x163138AA, 0xE38DEE4D, 0xB0FB0E4E⟩

/-- The round constant `T[j]` (R141). -/
def roundConst (j : Nat) : Word := if j < 16 then 0x79CC4519 else 0x7A879D8A

/-- `FF_j` (R142). -/
def ff (j : Nat) (x y z : Word) : Word :=
  if j < 16 then x ^^^ y ^^^ z else (x &&& y) ||| (x &&& z) ||| (y &&& z)

/-- `GG_j` (R142). -/
def gg (j : Nat) (x y z : Word) : Word :=
  if j < 16 then x ^^^ y ^^^ z else (x &&& y) ||| (~~~x &&& z)

/-- `P0(x)` (R143). -/
def p0 (x : Word) : Word := x ^^^ rotl x 9 ^^^ rotl x 17

/-- `P1(x)` (41_expander.md R121). -/
def p1 (x : Word) : Word := x ^^^ rotl x 15 ^^^ rotl x 23

/-! Padder -/

/-- `k`, the number of zero bits of the padding of an `n`-byte message (40_padder.md R100). -/
def padZeroBits (n : Nat) : Nat :=
  let r := (8 * n + 1) % 512
  if r ≤ 448 then 448 - r else 512 + 448 - r

/-- `PadLen(n)`: the length in bytes of the padded string of an `n`-byte message (R101). -/
def padLen (n : Nat) : Nat := (8 * n + 1 + padZeroBits n + 64) / 8

/-- `pad(m)` (R100). -/
def pad (m : List Byte) : List Byte :=
  m ++ [0x80] ++ List.replicate ((padZeroBits m.length - 7) / 8) 0
    ++ be64Bytes (BitVec.ofNat 64 (8 * m.length))

/-! Block expander -/

/-- `W[j]` for `j ≥ 16`, from the words before it, `j` being how many there are (R120). -/
def nextW (ws : List Word) : Word :=
  let j := ws.length
  p1 (ws.getD (j - 16) 0 ^^^ ws.getD (j - 9) 0 ^^^ rotl (ws.getD (j - 3) 0) 15)
    ^^^ rotl (ws.getD (j - 13) 0) 7 ^^^ ws.getD (j - 6) 0

/-- `n` further words, computed "in increasing j" (R120). -/
def extendW : Nat → List Word → List Word
  | 0, ws => ws
  | n + 1, ws => extendW n (ws ++ [nextW ws])

/-- `W[0..15]`: the sixteen big-endian words of the block (R120). -/
def blockWords (blk : List Byte) : List Word :=
  (List.range 16).map fun i => be32 (slice blk (4 * i) 4)

/-- `W[0..67]` of `expand(blk)` (R120). -/
def expandW (blk : List Byte) : List Word := extendW 52 (blockWords blk)

/-- `Wp[0..63]` from `W` (R120). -/
def expandWp (w : List Word) : List Word :=
  (List.range 64).map fun j => w.getD j 0 ^^^ w.getD (j + 4) 0

/-- `expand(blk)`: the two arrays `(W, Wp)` (R120). -/
def expand (blk : List Byte) : List Word × List Word :=
  (expandW blk, expandWp (expandW blk))

/-! Compression -/

/-- The temporaries `SS1`, `SS2`, `TT1`, `TT2` of one round, which live within it (R43, R144). -/
structure RoundTemps where
  ss1 : Word
  ss2 : Word
  tt1 : Word
  tt2 : Word
  deriving DecidableEq, Repr

/-- The temporaries of round `j`, from the registers before the update (R144). -/
def roundTemps (j : Nat) (wj wpj : Word) (r : Words8) : RoundTemps :=
  let ss1 := rotl (rotl r.a 12 + r.e + rotl (roundConst j) (j % 32)) 7
  let ss2 := ss1 ^^^ rotl r.a 12
  { ss1 := ss1
    ss2 := ss2
    tt1 := ff j r.a r.b r.c + r.d + ss2 + wpj
    tt2 := gg j r.e r.f r.g + r.h + ss1 + wj }

/-- The simultaneous update of the working registers (R145). -/
def roundUpdate (t : RoundTemps) (r : Words8) : Words8 :=
  { a := t.tt1, b := r.a, c := rotl r.b 9, d := r.c,
    e := p0 t.tt2, f := r.e, g := rotl r.f 19, h := r.g }

/-- Round `j` with the expansion words it reads (R144, R145). -/
def sm3Round (j : Nat) (wj wpj : Word) (r : Words8) : Words8 :=
  roundUpdate (roundTemps j wj wpj r) r

/-- The 64 rounds "in increasing order" (R146). -/
def rounds (w wp : List Word) (r : Words8) : Words8 :=
  (List.range 64).foldl (fun r j => sm3Round j (w.getD j 0) (wp.getD j 0) r) r

/-- `CF(V, blk)` (R146). -/
def cf (v : Words8) (blk : List Byte) : Words8 :=
  v.xor (rounds (expandW blk) (expandWp (expandW blk)) v)

/-! Digest and HMAC -/

/-- Block `b` of a padded string `p`: the bytes `p[64b .. 64b+64)` (43_digest_driver.md R170). -/
def blockOf (p : List Byte) (b : Nat) : List Byte := slice p (64 * b) 64

/-- The blocks of a padded string folded into a chaining state "in original order" (R170). -/
def foldBlocks (v : Words8) (p : List Byte) : Words8 :=
  (List.range (p.length / 64)).foldl (fun s b => cf s (blockOf p b)) v

/-- `DigestState(m)` (R170). -/
def digestState (m : List Byte) : Words8 := foldBlocks iv (pad m)

/-- `digest(m) = SER(DigestState(m))` (R171). -/
def digest (m : List Byte) : List Byte := ser (digestState m)

/-- The effective key `K` (R173). -/
def effectiveKey (key : List Byte) : List Byte :=
  if 64 < key.length then digest key else key

/-- A 64-byte pad: `x XOR K[i]` for `i < len(K)`, `x` elsewhere (R174). -/
def keyPad (x : Byte) (k : List Byte) : List Byte :=
  (List.range 64).map fun i => k.getD i 0 ^^^ x

/-- The inner digest of HMAC, 32 raw bytes (R174, R176). -/
def hmacInner (key m : List Byte) : List Byte :=
  digest (keyPad 0x36 (effectiveKey key) ++ m)

/-- `HmacState(key, m)` (R175). -/
def hmacState (key m : List Byte) : Words8 :=
  digestState (keyPad 0x5C (effectiveKey key) ++ hmacInner key m)

/-- `hmac(key, m) = SER(HmacState(key, m))` (R174, R175). -/
def hmac (key m : List Byte) : List Byte := ser (hmacState key m)

/-- `HmacNeed(klen, slen)`: the longest padded string HMAC builds (R178). -/
def hmacNeed (klen slen : Nat) : Nat :=
  max (max (if 64 < klen then padLen klen else 0) (padLen (64 + slen))) 128

end Sys2Proof.Machine
end

