-- ==== Sys2Proof/Machine/State.lean ====
section
/-! DEFINITION. The state of the engine and of its two agents' interface (10_state.md), the ways a
step can stop, and the state right after reset (70_reset_and_hazards.md R230). -/

namespace Sys2Proof.Machine

/-- Why a step stops with a fault. -/
inductive Fault where
  /-- Raised by a host memory access (`mw`, `mr`) to an address outside 0 to `MEM_BYTES` - 1, which
  does not exist (R60). No byte is read or written. Safe: the model stops (log entry 9). -/
  | hostMemoryOutside
  deriving DecidableEq, Repr

/-- Why a step is refused. -/
inductive Refusal where
  /-- Raised by the dispatch for a command without a meaning. No command is left so. Safe. -/
  | notModelled (mnemonic : String)
  /-- Raised by a host register access that is misaligned or outside the window, which "the port
  cannot express" (U17, R22). Safe. -/
  | registerAccessOutsidePort
  /-- Raised by the engine's turn when the latched `op` is no command's opcode. No run reaches it:
  acceptance latches legal opcodes only (R82). Safe. -/
  | latchedOpIllegal
  deriving DecidableEq, Repr

/-- The engine's phase (R46); `STATUS.BUSY` = 1 exactly when it is `run`. -/
inductive Phase where
  | idle
  | run
  deriving DecidableEq, Repr

/-- The causes of a failure (60_exceptions.md R200). -/
inductive ErrCause where
  | illegalCmd
  | range
  | alloc
  deriving DecidableEq, Repr

/-- The registers of the map (R23), and its reserved offsets (R38). -/
inductive Reg where
  | cmd
  | status
  | intEn
  | outLen
  | srcAddr
  | srcLen
  | keyAddr
  | keyLen
  | dstAddr
  | v (i : Fin 8)
  | reserved
  deriving DecidableEq, Repr

/-- The latched operands (R40): copies the engine makes at acceptance and reads its operands from. -/
structure Latched where
  op : BitVec 4
  src : Word
  slen : Word
  key : Word
  klen : Word
  dst : Word
  deriving DecidableEq, Repr

/-- The engine's internal state (R41 to R45), not visible on the register port. -/
structure Engine where
  /-- The padded buffer `PB` (R41). -/
  pb : List Byte
  /-- The expansion array `W[0..67]` (R42). -/
  w : List Word
  /-- The expansion array `Wp[0..63]` (R42). -/
  wp : List Word
  /-- The working registers `A` to `H` (R43). -/
  work : Words8
  /-- The round counter `j` (R44). -/
  j : Nat
  /-- The block index `b` (R44). -/
  b : Nat
  /-- The effective key `K` of the HMAC context (R45). -/
  key : List Byte
  /-- The inner pad of the HMAC context (R45). -/
  ipad : List Byte
  /-- The outer pad of the HMAC context (R45). -/
  opad : List Byte
  /-- The inner digest, held between the two HMAC stages as raw bytes (R45, R176). -/
  inner : List Byte
  deriving DecidableEq, Repr

/-- One operation of the host (30_encoding.md R88). A register is named by its platform address, and
a value that is read gets the number of its name. -/
inductive HostOp where
  /-- `wr <REG>, <value>`. -/
  | wr (addr : Nat) (value : Word)
  /-- `rd <REG> -> <name>`. -/
  | rd (addr : Nat) (name : Nat)
  /-- `mw <addr>, <bytes>`. -/
  | mw (addr : Nat) (bytes : List Byte)
  /-- `mr <addr>, <n> -> <name>`. -/
  | mr (addr n : Nat) (name : Nat)
  /-- `wait`: `STATUS` is read until BUSY = 0, and the last value read gets the name. -/
  | wait (name : Nat)
  deriving DecidableEq, Repr

/-- One input of the machine. The order of the inputs is the schedule: a command is as late as the
number of host operations that stand before the engine's turn (R8, R243). -/
inductive Event where
  /-- The host's next operation reaches the engine or the data memory. -/
  | host (op : HostOp)
  /-- The engine gets the turn: a running command completes. -/
  | engine
  /-- The reset input (R230 to R232). -/
  | reset
  deriving DecidableEq, Repr

/-- What the host has read. -/
inductive Observation where
  | reg (name : Nat) (value : Word)
  | mem (name : Nat) (bytes : List Byte)
  deriving DecidableEq, Repr

/-- What moves in a step. -/
inductive Turn where
  | nobody
  | host (op : HostOp)
  | engine
  | reset
  deriving DecidableEq, Repr

/-- The machine: the parameters of the implementation, the registers of the map (R23), the internal
state (R40 to R46), the data memory (R60), and the model's own bookkeeping of the two agents. -/
structure State where
  /-- The parameters (R5 to R7), which no step changes. -/
  params : Params
  /-- The phase (R46), which is also `STATUS.BUSY` (R25). -/
  phase : Phase
  /-- `STATUS.DONE` (R26). -/
  done : Bool
  /-- `STATUS.ERR` (R27). -/
  err : Bool
  /-- `STATUS.OVR` (R28). -/
  ovr : Bool
  /-- `STATUS.ERRCODE` (R29). -/
  errcode : BitVec 4
  /-- `INT_EN.IE` (R37); the register's other bits have no storage. -/
  ie : Bool
  /-- `OUT_LEN` (R36). -/
  outLen : Word
  /-- `SRC_ADDR` (R31). -/
  srcAddr : Word
  /-- `SRC_LEN` (R32). -/
  srcLen : Word
  /-- `KEY_ADDR` (R33). -/
  keyAddr : Word
  /-- `KEY_LEN` (R34). -/
  keyLen : Word
  /-- `DST_ADDR` (R35). -/
  dstAddr : Word
  /-- `V0`..`V7`, the HashState (R30). -/
  v : Words8
  /-- The latched operands (R40). -/
  lat : Latched
  /-- The internal state of R41 to R45. -/
  engine : Engine
  /-- The data memory (R60). -/
  mem : Memory
  /-- The model's own: the host has written a byte of the running command's source or key range
  since acceptance (R240). -/
  raceIn : Bool
  /-- The model's own: the addresses of the running command's destination range that the host has
  written since acceptance (R240). -/
  raceOut : List Nat
  /-- The model's own: how many draws of free values were made. -/
  draws : Nat
  /-- The model's own: the inputs to come, the next one first. -/
  events : List Event
  /-- The model's own: what the host has read, the latest first. -/
  seen : List Observation
  deriving DecidableEq, Repr

/-- Internal state with every word, byte and counter 0 (log entry 3, DESIGN CHOICE: "The internal
state of rules R40 to R45 is unspecified after reset"). -/
def Engine.zero : Engine where
  pb := []
  w := List.replicate 68 0
  wp := List.replicate 64 0
  work := ⟨0, 0, 0, 0, 0, 0, 0, 0⟩
  j := 0
  b := 0
  key := []
  ipad := List.replicate 64 0
  opad := List.replicate 64 0
  inner := List.replicate 32 0

/-- The machine right after reset with the parameters `p` (R230): every host-visible register at the
reset value of R23, the phase `idle`, nothing listed in memory and no input waiting. -/
def State.powerOn (p : Params) : State where
  params := p
  phase := .idle
  done := false
  err := false
  ovr := false
  errcode := 0
  ie := false
  outLen := 0
  srcAddr := 0
  srcLen := 0
  keyAddr := 0
  keyLen := 0
  dstAddr := 0
  v := iv
  lat := ⟨0, 0, 0, 0, 0, 0⟩
  engine := Engine.zero
  mem := []
  raceIn := false
  raceOut := []
  draws := 0
  events := []
  seen := []

/-- The machine right after reset, with parameters R5 to R7 allow and nothing else known of them. -/
def State.reset : State := State.powerOn Config.params

end Sys2Proof.Machine
end

