-- ==== Sys2Proof/Machine/Engine.lean ====
section
/-! DEFINITION. What the engine computes, in its internal state (10_state.md R41 to R45): the padded
buffer is filled, the expander fills `W` and `Wp`, the rounds run on `A` to `H` under the counter `j`,
the block loop runs under `b`, and the HMAC context holds the key, the pads and the inner digest. -/

namespace Sys2Proof.Machine

/-- `PB[0 .. L) <- pad(m)` (40_padder.md R105). -/
def Engine.fillPad (e : Engine) (m : List Byte) : Engine := { e with pb := pad m }

/-- `(W, Wp) <- expand(blk)` (41_expander.md R122, 42_compression.md R146). -/
def Engine.fillExpansion (e : Engine) (blk : List Byte) : Engine :=
  { e with w := (expand blk).1, wp := (expand blk).2 }

/-- Round `j` on the working registers, reading `W[j]` and `Wp[j]` (R144, R145). -/
def Engine.runRound (e : Engine) (j : Nat) : Engine :=
  { e with j := j, work := sm3Round j (e.w.getD j 0) (e.wp.getD j 0) e.work }

/-- The rounds `j` = 0 to 63 in increasing order (R146). -/
def Engine.runRounds (e : Engine) : Engine := (List.range 64).foldl Engine.runRound e

/-- The compression of one block into the chaining state `v` (R146): expand, copy the state words,
run the rounds, fold. -/
def Engine.compress (e : Engine) (v : Words8) (blk : List Byte) : Words8 × Engine :=
  let e := { e.fillExpansion blk with work := v }.runRounds
  (v.xor e.work, e)

/-- One turn of the block loop: block `b` of the padded buffer (43_digest_driver.md R170). -/
def Engine.blockStep (ve : Words8 × Engine) (b : Nat) : Words8 × Engine :=
  { ve.2 with b := b }.compress ve.1 (blockOf ve.2.pb b)

/-- The block loop over the padded buffer, `b` = 0 to L/64 - 1 (R44, R170). -/
def Engine.runBlocks (e : Engine) (v : Words8) : Words8 × Engine :=
  (List.range (e.pb.length / 64)).foldl Engine.blockStep (v, e)

/-- The digest pipeline on a message (R170): pad, then compress the blocks from `IV`. -/
def Engine.digest (e : Engine) (m : List Byte) : Words8 × Engine := (e.fillPad m).runBlocks iv

/-- The effective key into the HMAC context (R45, R173). -/
def Engine.loadKey (e : Engine) (key : List Byte) : Engine :=
  if 64 < key.length then
    let r := e.digest key
    { r.2 with key := ser r.1 }
  else { e with key := key }

/-- The pads of the HMAC context, from the effective key (R45, R174). -/
def Engine.loadPads (e : Engine) : Engine :=
  { e with ipad := keyPad 0x36 e.key, opad := keyPad 0x5C e.key }

/-- The inner digest into the HMAC context, as raw bytes (R174, R176). -/
def Engine.innerStage (e : Engine) (m : List Byte) : Engine :=
  let r := e.digest (e.ipad ++ m)
  { r.2 with inner := ser r.1 }

/-- The HMAC construction (R174, R175): the state of the outer digest. -/
def Engine.hmac (e : Engine) (key m : List Byte) : Words8 × Engine :=
  let e := (e.loadKey key).loadPads.innerStage m
  e.digest (e.opad ++ e.inner)

end Sys2Proof.Machine
end

