-- ==== Sys2Proof/Machine/Flags.lean ====
section
/-! DEFINITION. The status register, the error codes and the interrupt output (10_state.md R25 to R29,
60_exceptions.md R200, R210). -/

namespace Sys2Proof.Machine

/-- `STATUS.BUSY`: 1 exactly when the phase is `run` (R25, R46). -/
def State.busy (s : State) : Bool := decide (s.phase = .run)

/-- The code of a failure (R200). -/
def ErrCause.code (c : ErrCause) : BitVec 4 :=
  match c with
  | .illegalCmd => 1
  | .range => 2
  | .alloc => 3

/-- The word a read of `STATUS` returns: ERRCODE [7:4], OVR 3, ERR 2, DONE 1, BUSY 0; the reserved
bits [31:8] read 0 (R25 to R29). -/
def State.statusWord (s : State) : Word :=
  (BitVec.ofBool s.busy).setWidth 32 ||| ((BitVec.ofBool s.done).setWidth 32 <<< 1)
    ||| ((BitVec.ofBool s.err).setWidth 32 <<< 2) ||| ((BitVec.ofBool s.ovr).setWidth 32 <<< 3)
    ||| (s.errcode.setWidth 32 <<< 4)

/-- A host write of `w` to `STATUS` (R29): bit 1 clears DONE, bit 2 clears ERR and ERRCODE, bit 3
clears OVR, and the other bits are ignored. -/
def State.writeStatus (s : State) (w : Word) : State :=
  { s with
    done := s.done && !w.getLsbD 1
    err := s.err && !w.getLsbD 2
    errcode := if w.getLsbD 2 then 0 else s.errcode
    ovr := s.ovr && !w.getLsbD 3 }

/-- What the acceptance of any command write clears: DONE, ERR and ERRCODE, "OVR is kept" (R82). -/
def State.clearReport (s : State) : State :=
  { s with done := false, err := false, errcode := 0 }

/-- The word a read of `INT_EN` returns: `IE` in bit 0, the reserved bits read 0 (R37). -/
def State.intEnWord (s : State) : Word := (BitVec.ofBool s.ie).setWidth 32

/-- The interrupt output: `irq = INT_EN.IE AND (STATUS.DONE OR STATUS.ERR)` (R210). -/
def State.irq (s : State) : Bool := s.ie && (s.done || s.err)

end Sys2Proof.Machine
end

