-- ==== Sys2Proof/Syntax.lean ====
section
/-! DEFINITION. The commands of the engine: one constructor per row of spec/opcode_table.json. -/

namespace Sys2Proof

/-- The six commands of the opcode map (30_encoding.md R84).
"The word has no register fields and no immediates" (R81), so no constructor has an argument:
every operand comes from the latched operand registers (10_state.md R40). -/
inductive Instr where
  /-- PAD, R105: write the padded message to memory. -/
  | pad
  /-- EXPAND, R122: write the two expansion arrays of one block to memory. -/
  | expand
  /-- INIT, R150: set the chaining words to the initialization vector. -/
  | init
  /-- COMPRESS, R151: fold one 64-byte block into the chaining words. -/
  | compress
  /-- DIGEST, R180: hash a message. -/
  | digest
  /-- HMAC, R181: authenticate a message with a key. -/
  | hmac
  deriving DecidableEq, Repr

end Sys2Proof
end

