-- ==== Sys2Proof/WellFormed.lean ====
section
/-! DEFINITION. The checks of well-formedness: of a command word and of an implementation's
parameters. A term of `Instr` has no field to check: "The word has no register fields and no
immediates" (30_encoding.md R81). -/

namespace Sys2Proof

/-- A 32-bit word is a legal command word when its reserved bits [31:4] are 0 and its opcode [3:0] is
one of {0x1..0x6} (R81, R82, R85). -/
def commandWordWf (c : Word) : Bool :=
  decide (c.extractLsb' 4 28 = 0) && decide (1 ≤ (c.extractLsb' 0 4).toNat)
    && decide ((c.extractLsb' 0 4).toNat ≤ 6)

/-- "`MEM_BYTES` is a parameter, 1 ≤ `MEM_BYTES` ≤ 2^32" (00_scope.md R5). -/
def Params.memBytesWf (p : Params) : Bool :=
  decide (1 ≤ p.memBytes) && decide (p.memBytes ≤ 2 ^ 32)

/-- "Its value is either a multiple of 64 that is at least 128, or `UNBOUNDED`" (00_scope.md R6). -/
def Params.padBufWf (p : Params) : Bool :=
  match p.padBuf with
  | none => true
  | some n => decide (n % 64 = 0) && decide (128 ≤ n)

/-- Legal implementation parameters. `REG_BASE` may be any address (R7). -/
def Params.wf (p : Params) : Bool :=
  p.memBytesWf && p.padBufWf

end Sys2Proof
end

