-- ==== Sys2Proof/Decode.lean ====
section
/-! DEFINITION. The decoder of command words, and after it the encoder (30_encoding.md R81 to R87). -/

namespace Sys2Proof

/-- Why a command word is illegal (R85). -/
inductive DecodeError where
  /-- A bit of `RSV`, [31:4], is set. -/
  | reservedBits
  /-- `RSV` is 0 and `OP` is 0x0 or one of 0x7 to 0xF. -/
  | reservedOpcode
  deriving DecidableEq, Repr

/-- The field `OP` of a command word, bits [3:0] (R81). -/
def opField (c : Word) : BitVec 4 := c.extractLsb' 0 4

/-- The field `RSV` of a command word, bits [31:4] (R81). -/
def rsvField (c : Word) : BitVec 28 := c.extractLsb' 4 28

/-- The opcode map on the field `OP` (R84). -/
def decodeOpcode (op : BitVec 4) : Option Instr :=
  match op.toNat with
  | 1 => some .pad
  | 2 => some .expand
  | 3 => some .init
  | 4 => some .compress
  | 5 => some .digest
  | 6 => some .hmac
  | _ => none

/-- The decoder, total on the 2^32 command words (R84, R85). A command word reaches the engine as one
32-bit register write, so no byte order takes part in it (10_state.md R22). -/
def decode (c : Word) : Except DecodeError Instr :=
  if rsvField c ≠ 0 then .error .reservedBits
  else
    match decodeOpcode (opField c) with
    | some i => .ok i
    | none => .error .reservedOpcode

/-- The opcode of each command (the column `op` of R83, R84). -/
def opcodeOf (i : Instr) : BitVec 4 :=
  match i with
  | .pad => 0x1
  | .expand => 0x2
  | .init => 0x3
  | .compress => 0x4
  | .digest => 0x5
  | .hmac => 0x6

/-- The command word of a command (R81, R84): `RSV` = 0 above `OP`. -/
def encode (i : Instr) : Word := (opcodeOf i).setWidth 32

/-- The decoder on a row's word as spec/opcode_table.json numbers its bits. A command word is exactly
32 bits (R87), and the bits above `nbits` are 0. -/
def decodeTableWord (nbits w : Nat) : Option Instr :=
  match decode (BitVec.ofNat 32 (w % 2 ^ nbits)) with
  | .ok i => some i
  | .error _ => none

end Sys2Proof
end

