-- ==== Sys2Proof/Machine/Operands.lean ====
section
/-! DEFINITION. The operands of the commands: latching (10_state.md R40), the ranges each command
reads and writes and their checks (20_memory.md R66, R67), the buffer each command needs
(60_exceptions.md R202). -/

namespace Sys2Proof.Machine

/-- The copy of the operand registers made at acceptance (R40, R82): `op` is `CMD[3:0]`. -/
def State.latchOperands (s : State) (c : Word) : Latched where
  op := opField c
  src := s.srcAddr
  slen := s.srcLen
  key := s.keyAddr
  klen := s.keyLen
  dst := s.dstAddr

/-- The command named by the latched `op` (30_encoding.md R83), read by the decoder from the word
that has `op` in [3:0] and 0 above. -/
def State.latchedInstr (s : State) : Option Instr :=
  match decode (s.lat.op.setWidth 32) with
  | .ok i => some i
  | .error _ => none

/-- A range of the data memory: its first address and its length in bytes. -/
abbrev Range := Word × Nat

/-- `InRange(a, n)`: `a + n ≤ MEM_BYTES`, "computed over unbounded naturals" (R66). -/
def inRange (p : Params) (r : Range) : Bool := decide (r.1.toNat + r.2 ≤ p.memBytes)

/-- The address `x` is one of the bytes of the range. -/
def Range.has (r : Range) (x : Nat) : Bool :=
  decide (r.1.toNat ≤ x) && decide (x < r.1.toNat + r.2)

/-- The ranges a command reads, in the order of R67. -/
def inputRanges (i : Instr) (o : Latched) : List Range :=
  match i with
  | .pad => [(o.src, o.slen.toNat)]
  | .expand => [(o.src, 64)]
  | .init => []
  | .compress => [(o.src, 64)]
  | .digest => [(o.src, o.slen.toNat)]
  | .hmac => [(o.key, o.klen.toNat), (o.src, o.slen.toNat)]

/-- How many bytes a command writes at `dst` when it succeeds: the new `OUT_LEN` (R36, R86). -/
def outLength (i : Instr) (o : Latched) : Nat :=
  match i with
  | .pad => padLen o.slen.toNat
  | .expand => 528
  | .init => 0
  | .compress => 0
  | .digest => 32
  | .hmac => 32

/-- The ranges a command writes (R67): INIT and COMPRESS write no memory (R69). -/
def outputRanges (i : Instr) (o : Latched) : List Range :=
  match i with
  | .pad => [(o.dst, outLength .pad o)]
  | .expand => [(o.dst, outLength .expand o)]
  | .init => []
  | .compress => []
  | .digest => [(o.dst, outLength .digest o)]
  | .hmac => [(o.dst, outLength .hmac o)]

/-- The ranges a command checks, in order (R67). -/
def checkedRanges (i : Instr) (o : Latched) : List Range := inputRanges i o ++ outputRanges i o

/-- The padded-buffer bytes a command needs (R202): COMPRESS, EXPAND and INIT need none. -/
def bufferNeed (i : Instr) (o : Latched) : Nat :=
  match i with
  | .pad => padLen o.slen.toNat
  | .expand => 0
  | .init => 0
  | .compress => 0
  | .digest => padLen o.slen.toNat
  | .hmac => hmacNeed o.klen.toNat o.slen.toNat

/-- The padded buffer can hold `n` bytes: "With `UNBOUNDED`, `ALLOC` never occurs" (R6). -/
def bufferHolds (p : Params) (n : Nat) : Bool :=
  match p.padBuf with
  | none => true
  | some c => decide (n ≤ c)

/-- The failure of a command, the first that applies: RANGE, then ALLOC (R206). -/
def commandError (p : Params) (i : Instr) (o : Latched) : Option ErrCause :=
  if (checkedRanges i o).all (inRange p) then
    if bufferHolds p (bufferNeed i o) then none else some .alloc
  else some .range

/-- The address is a byte of a range the running command reads (R240). -/
def State.readsByte (s : State) (x : Nat) : Bool :=
  match s.latchedInstr with
  | some i => (inputRanges i s.lat).any fun r => r.has x
  | none => false

/-- The address is a byte of the running command's destination range (R240). -/
def State.writesByte (s : State) (x : Nat) : Bool :=
  match s.latchedInstr with
  | some i => (outputRanges i s.lat).any fun r => r.has x
  | none => false

end Sys2Proof.Machine
end

