-- ==== Sys2Proof/Machine/Ops.lean ====
section
/-! DEFINITION. The shared operations: acceptance (30_encoding.md R82), a failure and the completions
(60_exceptions.md R203, R204), committing a command's results under the hazards of
70_reset_and_hazards.md R240, and reset (R230 to R232). -/

namespace Sys2Proof.Machine

/-! Free values of the internal state -/

/-- Latched operands of unspecified value (R40, U9). -/
def Latched.free (d : Nat) : Latched where
  op := (Config.idleWord d 0).setWidth 4
  src := Config.idleWord d 1
  slen := Config.idleWord d 2
  key := Config.idleWord d 3
  klen := Config.idleWord d 4
  dst := Config.idleWord d 5

/-- `n` unspecified bytes, the first with the number `k`. -/
def freeBytes (d k n : Nat) : List Byte := (List.range n).map fun i => Config.idleByte d (k + i)

/-- `n` unspecified words, the first with the number `k`. -/
def freeWords (d k n : Nat) : List Word := (List.range n).map fun i => Config.idleWord d (k + i)

/-- How many bytes of the padded buffer are in use when its contents are unspecified: any number up
to its capacity. -/
def freeBufferLength (p : Params) (d : Nat) : Nat :=
  match p.padBuf with
  | none => Config.idleNat d 0
  | some c => Config.idleNat d 0 % (c + 1)

/-- Internal state of unspecified contents (R41 to R45, U9), of the sizes those rules give. -/
def Engine.free (p : Params) (d : Nat) : Engine where
  pb := freeBytes d 256 (freeBufferLength p d)
  w := freeWords d 100 68
  wp := freeWords d 200 64
  work :=
    { a := Config.idleWord d 10, b := Config.idleWord d 11, c := Config.idleWord d 12,
      d := Config.idleWord d 13, e := Config.idleWord d 14, f := Config.idleWord d 15,
      g := Config.idleWord d 16, h := Config.idleWord d 17 }
  j := Config.idleNat d 1 % 64
  b := Config.idleNat d 2
  key := freeBytes d 0 (Config.idleNat d 3 % 65)
  ipad := freeBytes d 65 64
  opad := freeBytes d 129 64
  inner := freeBytes d 193 32

/-- The end of a command for the internal state: it is discarded (R45, R205), the latched operands
and the buffers are of unspecified value (U9), and no range is any longer a running command's. -/
def State.discard (s : State) : State :=
  { s with
    lat := Latched.free s.draws
    engine := Engine.free s.params s.draws
    raceIn := false
    raceOut := []
    draws := s.draws + 1 }

/-! Failure and completion -/

/-- `raise <E>`, the one operation every failure takes (R204): the report and the phase. The engine
"saves no state, switches no mode and jumps to no vector" (R212), so nothing else changes, and there
is no return from it but the host's `clear` or the next command. -/
def State.raise (s : State) (c : ErrCause) : State :=
  { s with outLen := 0, err := true, errcode := c.code, phase := .idle }

/-- The failure of a running command: the report, and its internal state discarded (R204, R205). -/
def State.abort (s : State) (c : ErrCause) : State := (s.raise c).discard

/-- The value of `OUT_LEN` for `n` bytes written (R36). 2^32 bytes do not fit it, and the spec states
no value there (log entry 8). -/
def outLenValue (n d : Nat) : Word :=
  if n < 2 ^ 32 then BitVec.ofNat 32 n else Config.wideOutLen d

/-- Successful completion with `n` bytes written (R36, R203). -/
def State.complete (s : State) (n : Nat) : State :=
  { s with outLen := outLenValue n s.draws, done := true, phase := .idle }.discard

/-- The checks of a command, before it makes any memory access, and then what it does when it
succeeds (R66, R67, R206). -/
def State.checked (s : State) (i : Instr) (act : State → State) : State :=
  match commandError s.params i s.lat with
  | some c => s.abort c
  | none => act s

/-! Results -/

/-- The eight unspecified chaining words of a raced command (R240). -/
def racedWords (d : Nat) : Words8 :=
  { a := Config.racedWord d 0, b := Config.racedWord d 1, c := Config.racedWord d 2,
    d := Config.racedWord d 3, e := Config.racedWord d 4, f := Config.racedWord d 5,
    g := Config.racedWord d 6, h := Config.racedWord d 7 }

/-- `V[0..7] <- v`, or unspecified words where the host wrote the command's input (R240). -/
def State.commitV (s : State) (v : Words8) : State :=
  { s with v := if s.raceIn then racedWords s.draws else v }

/-- The byte the engine writes as byte `k` of its output: `b`, or an unspecified byte where the host
wrote the command's input (R240). -/
def State.engineByte (s : State) (k : Nat) (b : Byte) : Byte :=
  if s.raceIn then Config.racedByte s.draws k else b

/-- The byte that stands at `addr` afterwards when the engine's byte number `k` there is `b`: where
the host wrote the address too, either the host's value or the engine's (R240). -/
def State.settledByte (s : State) (addr k : Nat) (b : Byte) : Byte :=
  if s.raceOut.contains addr && Config.hostWins s.draws k then s.mem.read addr
  else s.engineByte k b

/-- The bytes that stand in the destination range after the command, `k` being the number of the
first of them. -/
def State.settledBytes (s : State) : Nat → Nat → List Byte → List Byte
  | _, _, [] => []
  | addr, k, b :: rest => s.settledByte addr k b :: s.settledBytes (addr + 1) (k + 1) rest

/-- `MemWrite(dst, len(out), out)`, the output of a command (R63, R68, R240). -/
def State.commitOut (s : State) (out : List Byte) : State :=
  { s with mem := s.mem.writeBytes s.lat.dst.toNat (s.settledBytes s.lat.dst.toNat 0 out) }

/-! Acceptance and reset -/

/-- Acceptance of the word `c` while BUSY = 0, in one step (R82). -/
def State.accept (s : State) (c : Word) : State :=
  match decode c with
  | .error _ => s.clearReport.raise .illegalCmd
  | .ok _ =>
    { s.clearReport with
      lat := s.latchOperands c
      phase := .run
      raceIn := false
      raceOut := [] }

/-- `n` unspecified bytes from `addr` up, each drawn on its own (R231). -/
def abandonedBytes (d n : Nat) : List Byte := (List.range n).map (Config.abandonedByte d)

/-- The data memory after reset: as before, but for the destination range of a command that was
running and would have written it (R231, R232). -/
def State.memAfterReset (s : State) : Memory :=
  match s.phase, s.latchedInstr with
  | .run, some i =>
    match commandError s.params i s.lat with
    | none => s.mem.writeBytes s.lat.dst.toNat (abandonedBytes s.draws (outLength i s.lat))
    | some _ => s.mem
  | _, _ => s.mem

/-- Reset (R230 to R232): the registers at their reset values, the phase `idle`, a running command
abandoned without completion, the internal state unspecified. -/
def State.applyReset (s : State) : State :=
  { s with
    phase := .idle
    done := false
    err := false
    ovr := false
    errcode := 0
    ie := false
    outLen := 0
    srcAddr := 0
    srcLen := 0
    keyAddr := 0
    keyLen := 0
    dstAddr := 0
    v := iv
    mem := s.memAfterReset }.discard

end Sys2Proof.Machine
end

