-- ==== Sys2Proof/Machine/Compression.lean ====
section
/-! DEFINITION. The meanings of INIT and COMPRESS (42_compression.md R150, R151). -/

namespace Sys2Proof.Machine

/-- What INIT does (R150): `V <- IV`. It reads no range, so no race can touch its result. -/
def initBody (s : State) : State := { s with v := iv }.complete (outLength .init s.lat)

/-- INIT (R150). It checks nothing and "cannot fail". -/
def execInit (s : State) : Host.Outcome State Fault Refusal := .next (s.checked .init initBody)

/-- What COMPRESS does when its check passes (R151): `V <- CF(V, blk)`. -/
def compressBody (s : State) : State :=
  let r := s.engine.compress s.v (s.mem.readBytes s.lat.src.toNat 64)
  ({ s with engine := r.2 }.commitV r.1).complete (outLength .compress s.lat)

/-- COMPRESS (R151). It always completes, with DONE or with ERR. -/
def execCompress (s : State) : Host.Outcome State Fault Refusal :=
  .next (s.checked .compress compressBody)

end Sys2Proof.Machine
end

