-- ==== Sys2Proof/Machine/DigestDriver.lean ====
section
/-! DEFINITION. The meanings of DIGEST and HMAC (43_digest_driver.md R180, R181). -/

namespace Sys2Proof.Machine

/-- What DIGEST does when its checks pass (R180). -/
def digestBody (s : State) : State :=
  let r := s.engine.digest (s.mem.readBytes s.lat.src.toNat s.lat.slen.toNat)
  (({ s with engine := r.2 }.commitV r.1).commitOut (ser r.1)).complete (outLength .digest s.lat)

/-- DIGEST (R180). It always completes, with DONE or with ERR. -/
def execDigest (s : State) : Host.Outcome State Fault Refusal :=
  .next (s.checked .digest digestBody)

/-- What HMAC does when its checks pass (R181). -/
def hmacBody (s : State) : State :=
  let r := s.engine.hmac (s.mem.readBytes s.lat.key.toNat s.lat.klen.toNat)
    (s.mem.readBytes s.lat.src.toNat s.lat.slen.toNat)
  (({ s with engine := r.2 }.commitV r.1).commitOut (ser r.1)).complete (outLength .hmac s.lat)

/-- HMAC (R181). It always completes, with DONE or with ERR. -/
def execHmac (s : State) : Host.Outcome State Fault Refusal := .next (s.checked .hmac hmacBody)

end Sys2Proof.Machine
end

