-- ==== Sys2Proof/Machine/Expander.lean ====
section
/-! DEFINITION. The meaning of EXPAND (41_expander.md R122). -/

namespace Sys2Proof.Machine

/-- What EXPAND does when its checks pass (R122): `W` and then `Wp` to memory, each word
big-endian. -/
def expandBody (s : State) : State :=
  let e := s.engine.fillExpansion (s.mem.readBytes s.lat.src.toNat 64)
  ({ s with engine := e }.commitOut (wordsBytes e.w ++ wordsBytes e.wp)).complete
    (outLength .expand s.lat)

/-- EXPAND (R122). It always completes, with DONE or with ERR. -/
def execExpand (s : State) : Host.Outcome State Fault Refusal :=
  .next (s.checked .expand expandBody)

end Sys2Proof.Machine
end

