-- ==== Sys2Proof/Machine/Padder.lean ====
section
/-! DEFINITION. The meaning of PAD (40_padder.md R105). -/

namespace Sys2Proof.Machine

/-- What PAD does when its checks pass (R105): `PB <- pad(m)`, then `PB` to memory. -/
def padBody (s : State) : State :=
  let e := s.engine.fillPad (s.mem.readBytes s.lat.src.toNat s.lat.slen.toNat)
  ({ s with engine := e }.commitOut e.pb).complete (outLength .pad s.lat)

/-- PAD (R105). It always completes, with DONE or with ERR. -/
def execPad (s : State) : Host.Outcome State Fault Refusal := .next (s.checked .pad padBody)

end Sys2Proof.Machine
end

