-- ==== Sys2Proof/Machine/HostPort.lean ====
section
/-! DEFINITION. The host's operations: the register port (10_state.md R22 to R39), the data memory
(20_memory.md R60, R61) with the hazards of 70_reset_and_hazards.md R240. -/

namespace Sys2Proof.Machine

/-! Register port -/

/-- The offset a platform address selects: a multiple of 4 in the window `REG_BASE` to
`REG_BASE` + 0xFF (R22); `none` where the port cannot express the access. -/
def portOffset (p : Params) (addr : Nat) : Option Nat :=
  if p.regBase ≤ addr ∧ addr < p.regBase + 0x100 ∧ (addr - p.regBase) % 4 = 0 then
    some (addr - p.regBase)
  else none

/-- The register map (R23): the register at an offset of the window. -/
def regAt (off : Nat) : Reg :=
  match off with
  | 0x00 => .cmd
  | 0x04 => .status
  | 0x08 => .intEn
  | 0x0C => .outLen
  | 0x10 => .srcAddr
  | 0x14 => .srcLen
  | 0x18 => .keyAddr
  | 0x1C => .keyLen
  | 0x20 => .dstAddr
  | 0x40 => .v 0
  | 0x44 => .v 1
  | 0x48 => .v 2
  | 0x4C => .v 3
  | 0x50 => .v 4
  | 0x54 => .v 5
  | 0x58 => .v 6
  | 0x5C => .v 7
  | _ => .reserved

/-- The offset of each register of the map (R23); `reserved` stands for its first offset. -/
def Reg.offset (r : Reg) : Nat :=
  match r with
  | .cmd => 0x00
  | .status => 0x04
  | .intEn => 0x08
  | .outLen => 0x0C
  | .srcAddr => 0x10
  | .srcLen => 0x14
  | .keyAddr => 0x18
  | .keyLen => 0x1C
  | .dstAddr => 0x20
  | .v i => 0x40 + 4 * i.val
  | .reserved => 0x24

/-- The value a host read of a register returns (R24 to R38). While BUSY = 1, `OUT_LEN` and the
`V` registers return an unspecified value (R47). -/
def State.readReg (s : State) (r : Reg) : Word :=
  match r with
  | .cmd => 0
  | .status => s.statusWord
  | .intEn => s.intEnWord
  | .outLen => if s.busy then Config.busyWord s.draws else s.outLen
  | .srcAddr => s.srcAddr
  | .srcLen => s.srcLen
  | .keyAddr => s.keyAddr
  | .keyLen => s.keyLen
  | .dstAddr => s.dstAddr
  | .v i => if s.busy then Config.busyWord s.draws else s.v.get i
  | .reserved => 0

/-- A host write of `c` to `CMD` (R24): acceptance while BUSY = 0 (30_encoding.md R82); while BUSY = 1
the write is dropped and sets OVR (R28). -/
def State.writeCmd (s : State) (c : Word) : State :=
  if s.busy then { s with ovr := true } else s.accept c

/-- A host write of `w` to a register: RO and reserved registers ignore it (R23, R30, R36, R38). -/
def State.writeReg (s : State) (r : Reg) (w : Word) : State :=
  match r with
  | .cmd => s.writeCmd w
  | .status => s.writeStatus w
  | .intEn => { s with ie := w.getLsbD 0 }
  | .outLen => s
  | .srcAddr => { s with srcAddr := w }
  | .srcLen => { s with srcLen := w }
  | .keyAddr => { s with keyAddr := w }
  | .keyLen => { s with keyLen := w }
  | .dstAddr => { s with dstAddr := w }
  | .v _ => s
  | .reserved => s

/-- The host gets a value: it is recorded, and the next read draws anew ("two reads may differ",
R47). -/
def State.observe (s : State) (o : Observation) : State :=
  { s with seen := o :: s.seen, draws := s.draws + 1 }

/-! Data memory -/

/-- The bytes `addr` to `addr + n - 1` exist (R60). -/
def hostRangeExists (p : Params) (addr n : Nat) : Bool := decide (addr + n ≤ p.memBytes)

/-- The byte number `k` of a host memory read, at `addr`: unspecified where it is a byte of a running
command's destination range (R240), else the byte of the memory (R61). -/
def State.hostReadByte (s : State) (addr k : Nat) : Byte :=
  if s.busy && s.writesByte addr then Config.busyByte s.draws k else s.mem.read addr

/-- The bytes a host memory read returns. -/
def State.hostReadBytes (s : State) (addr n : Nat) : List Byte :=
  (List.range n).map fun k => s.hostReadByte (addr + k) k

/-- What a host write of the bytes from `addr` up means for a running command (R240): a byte of its
source or key range, or bytes of its destination range, were written. -/
def State.noteHostWrite (s : State) (addr n : Nat) : State :=
  if s.busy then
    { s with
      raceIn := s.raceIn || (List.range n).any fun k => s.readsByte (addr + k)
      raceOut := ((List.range n).map (addr + ·)).filter s.writesByte ++ s.raceOut }
  else s

/-- A host memory write (R61). -/
def State.hostWrite (s : State) (addr : Nat) (bytes : List Byte) : State :=
  { s.noteHostWrite addr bytes.length with mem := s.mem.writeBytes addr bytes }

/-! The operations of R88 -/

/-- One host operation. `wait` ends here with the read of `STATUS` that sees BUSY = 0: while
BUSY = 1 the turn goes to the engine (Machine/Schedule.lean). -/
def State.serve (s : State) (op : HostOp) : Host.Outcome State Fault Refusal :=
  match op with
  | .wr addr w =>
    match portOffset s.params addr with
    | some off => .next (s.writeReg (regAt off) w)
    | none => .refused .registerAccessOutsidePort
  | .rd addr name =>
    match portOffset s.params addr with
    | some off => .next (s.observe (.reg name (s.readReg (regAt off))))
    | none => .refused .registerAccessOutsidePort
  | .mw addr bytes =>
    if hostRangeExists s.params addr bytes.length then .next (s.hostWrite addr bytes)
    else .fault .hostMemoryOutside
  | .mr addr n name =>
    if hostRangeExists s.params addr n then .next (s.observe (.mem name (s.hostReadBytes addr n)))
    else .fault .hostMemoryOutside
  | .wait name => .next (s.observe (.reg name s.statusWord))

/-- `wr <REG>, <value>` with the register named (R88). -/
def wrReg (p : Params) (r : Reg) (w : Word) : HostOp := .wr (p.regBase + r.offset) w

/-- `rd <REG> -> <name>` with the register named (R88). -/
def rdReg (p : Params) (r : Reg) (name : Nat) : HostOp := .rd (p.regBase + r.offset) name

/-- `cmd <COMMAND>` (R88): `wr CMD` of the command's word. -/
def cmdOp (p : Params) (i : Instr) : HostOp := wrReg p .cmd (encode i)

/-- `clear` (R88): `wr STATUS, 0x0000000E`. -/
def clearOp (p : Params) : HostOp := wrReg p .status 0x0000000E

end Sys2Proof.Machine
end

