-- ==== Sys2Proof/Machine/Schedule.lean ====
section
/-! DEFINITION. Which agent moves next (10_state.md R20, R21; 00_scope.md R8), and how the command
that `step` runs next is placed. -/

namespace Sys2Proof.Machine

/-- Who moves, and the state with the input taken that says so. While a command runs and no input is
left, the engine moves ("a command completes after a finite number of engine steps", R243); so it
does while the host waits (R88 `wait`). An idle engine without an input stays as it is (R232). -/
def State.nextTurn (s : State) : Turn × State :=
  match s.events with
  | [] => if s.busy then (.engine, s) else (.nobody, s)
  | .engine :: rest =>
    if s.busy then (.engine, { s with events := rest }) else (.nobody, { s with events := rest })
  | .reset :: rest => (.reset, { s with events := rest })
  | .host (.wait name) :: rest =>
    if s.busy then (.engine, s) else (.host (.wait name), { s with events := rest })
  | .host op :: rest => (.host op, { s with events := rest })

/-- The state with the command word `c` placed so that the next step runs it: a legal word is
accepted (R82) and the engine has the turn; an illegal word is the host's next write to `CMD`. -/
def State.placeCommand (s : State) (c : Word) : State :=
  match decode c with
  | .ok _ => { s.accept c with events := .engine :: s.events }
  | .error _ => { s with phase := .idle, events := .host (wrReg s.params .cmd c) :: s.events }

end Sys2Proof.Machine
end

