-- ==== Sys2Proof/Machine/Step.lean ====
section
/-! DEFINITION. One step of the machine, and the placing of the command that runs next. -/

namespace Sys2Proof.Machine

/-- One step: the agent whose turn it is moves. On the engine's turn the command named by the latched
`op` is run to its completion (30_encoding.md R83). -/
def step (s : State) : Host.Outcome State Fault Refusal :=
  match s.nextTurn with
  | (.nobody, t) => .next t
  | (.host op, t) => t.serve op
  | (.reset, t) => .next t.applyReset
  | (.engine, t) =>
    match t.latchedInstr with
    | some i => exec i t
    | none => .refused .latchedOpIllegal

/-- The state with the table's word `w` of `nbits` bits placed where `step` takes its next command
from (log entry 5). The bits above `nbits` are 0. -/
def State.withFetchWord (s : State) (nbits w : Nat) : State :=
  s.placeCommand (BitVec.ofNat 32 (w % 2 ^ nbits))

end Sys2Proof.Machine
end

