-- ==== Sys2Proof/Safety.lean ====
section
/-! DEFINITION. What every reachable state satisfies: the invariant of the machine, in the terms the
statements use. -/

namespace Sys2Proof.Machine

/-- The report in `STATUS`: "`DONE` and `ERR` are never both 1" (R27), ERRCODE is 0 "whenever `ERR`
= 0" (R29), and otherwise one of the codes 1 to 3 (R200, U7). -/
structure State.ReportInv (s : State) : Prop where
  notBoth : ¬(s.done = true ∧ s.err = true)
  codeZero : s.err = false → s.errcode = 0
  codeKnown : s.err = true → s.errcode = 1 ∨ s.errcode = 2 ∨ s.errcode = 3
  failedLength : s.err = true → s.outLen = 0

/-- A running command: acceptance has cleared DONE and ERR, and has latched a legal opcode (R82). -/
structure State.RunInv (s : State) : Prop where
  clean : s.phase = .run → s.done = false ∧ s.err = false
  legal : s.phase = .run → s.latchedInstr.isSome = true
  noRace : s.phase = .idle → s.raceIn = false ∧ s.raceOut = []

/-- The sizes R41 to R45 give the internal state. -/
structure State.EngineInv (s : State) : Prop where
  buffer : bufferHolds s.params s.engine.pb.length = true
  words : s.engine.w.length = 68 ∧ s.engine.wp.length = 64
  counter : s.engine.j < 64
  key : s.engine.key.length ≤ 64
  pads : s.engine.ipad.length = 64 ∧ s.engine.opad.length = 64
  inner : s.engine.inner.length = 32

/-- The invariant: legal parameters (R5, R6), the data memory in canonical form and within the
addresses that exist (R60), and the report, the running command and the internal state as above. -/
structure State.Inv (s : State) : Prop where
  params : s.params.wf = true
  memWf : s.mem.wf = true
  memWithin : s.mem.within s.params.memBytes = true
  report : s.ReportInv
  running : s.RunInv
  engine : s.EngineInv

end Sys2Proof.Machine
end

