-- ==== Sys2Proof/Certificates/Slice0/Obligations.lean ====
section
/-! DEFINITION. The statements for the provers. The terms they share stand first, each written from
the rule of spec/ it names. Of what the spec leaves unspecified after a command no statement says
which value it has. -/

namespace Sys2Proof.Claims

open Sys2Proof.Machine

/-! Shared terms -/

/-- The ranges of 20_memory.md R67 are all in range, over the naturals (R66). -/
def rangesFit (i : Instr) (s : State) : Prop :=
  match i with
  | .pad =>
    s.lat.src.toNat + s.lat.slen.toNat ≤ s.params.memBytes ∧
      s.lat.dst.toNat + padLen s.lat.slen.toNat ≤ s.params.memBytes
  | .expand =>
    s.lat.src.toNat + 64 ≤ s.params.memBytes ∧ s.lat.dst.toNat + 528 ≤ s.params.memBytes
  | .init => True
  | .compress => s.lat.src.toNat + 64 ≤ s.params.memBytes
  | .digest =>
    s.lat.src.toNat + s.lat.slen.toNat ≤ s.params.memBytes ∧
      s.lat.dst.toNat + 32 ≤ s.params.memBytes
  | .hmac =>
    s.lat.key.toNat + s.lat.klen.toNat ≤ s.params.memBytes ∧
      s.lat.src.toNat + s.lat.slen.toNat ≤ s.params.memBytes ∧
        s.lat.dst.toNat + 32 ≤ s.params.memBytes

/-- `n` bytes do not exceed `PADBUF_BYTES`; they never do where it is `UNBOUNDED` (00_scope.md R6). -/
def capacityAdmits (p : Params) (n : Nat) : Prop := ∀ c, p.padBuf = some c → n ≤ c

/-- The padded buffer holds what the command needs (60_exceptions.md R202). -/
def bufferFits (i : Instr) (s : State) : Prop :=
  match i with
  | .pad => capacityAdmits s.params (padLen s.lat.slen.toNat)
  | .expand => True
  | .init => True
  | .compress => True
  | .digest => capacityAdmits s.params (padLen s.lat.slen.toNat)
  | .hmac => capacityAdmits s.params (hmacNeed s.lat.klen.toNat s.lat.slen.toNat)

/-- How many bytes the command writes at `dst` when it succeeds (10_state.md R36). -/
def bytesWritten (i : Instr) (s : State) : Nat :=
  match i with
  | .pad => padLen s.lat.slen.toNat
  | .expand => 528
  | .init => 0
  | .compress => 0
  | .digest => 32
  | .hmac => 32

/-- The address is a byte of the command's destination range. -/
def isDestination (i : Instr) (s : State) (a : Nat) : Prop :=
  s.lat.dst.toNat ≤ a ∧ a < s.lat.dst.toNat + bytesWritten i s

/-- The address is a byte of a range the command reads (20_memory.md R67). -/
def isSource (i : Instr) (s : State) (a : Nat) : Prop :=
  match i with
  | .pad => s.lat.src.toNat ≤ a ∧ a < s.lat.src.toNat + s.lat.slen.toNat
  | .expand => s.lat.src.toNat ≤ a ∧ a < s.lat.src.toNat + 64
  | .init => False
  | .compress => s.lat.src.toNat ≤ a ∧ a < s.lat.src.toNat + 64
  | .digest => s.lat.src.toNat ≤ a ∧ a < s.lat.src.toNat + s.lat.slen.toNat
  | .hmac =>
    (s.lat.key.toNat ≤ a ∧ a < s.lat.key.toNat + s.lat.klen.toNat) ∨
      (s.lat.src.toNat ≤ a ∧ a < s.lat.src.toNat + s.lat.slen.toNat)

/-- No byte of the running command's ranges was written by the host since acceptance (R240). -/
def unraced (s : State) : Prop := s.raceIn = false ∧ s.raceOut = []

/-- The message of PAD, DIGEST and HMAC. -/
def message (s : State) : List Byte := s.mem.readBytes s.lat.src.toNat s.lat.slen.toNat

/-- The key of HMAC. -/
def keyBytes (s : State) : List Byte := s.mem.readBytes s.lat.key.toNat s.lat.klen.toNat

/-- The block of EXPAND and COMPRESS. -/
def block (s : State) : List Byte := s.mem.readBytes s.lat.src.toNat 64

/-- The output of a successful command, as its rule gives it. -/
def outputOf (i : Instr) (s : State) : List Byte :=
  match i with
  | .pad => pad (message s)
  | .expand => wordsBytes (expand (block s)).1 ++ wordsBytes (expand (block s)).2
  | .init => []
  | .compress => []
  | .digest => digest (message s)
  | .hmac => hmac (keyBytes s) (message s)

/-- The chaining words after a successful command, as its rule gives them (10_state.md R30): PAD and
EXPAND do not write them. -/
def chainingOf (i : Instr) (s : State) : Words8 :=
  match i with
  | .pad => s.v
  | .expand => s.v
  | .init => iv
  | .compress => cf s.v (block s)
  | .digest => digestState (message s)
  | .hmac => hmacState (keyBytes s) (message s)

/-- The outcome is a next state that agrees with `t` on everything but what the spec leaves
unspecified when no command runs, the latched operands and the internal state (10_state.md R40 to
R45), and but the model's own fields: no hazard is noted any longer, and free values were drawn. -/
def endsAs (o : Host.Outcome State Fault Refusal) (t : State) : Prop :=
  ∃ lat engine draws, o = .next
    { t with lat := lat, engine := engine, raceIn := false, raceOut := [], draws := draws }

/-- The state after `raise` with the code (60_exceptions.md R204): nothing else changes. -/
def failedWith (s : State) (code : BitVec 4) : State :=
  { s with outLen := 0, err := true, errcode := code, phase := .idle }

/-- The state after completion (60_exceptions.md R203) with the value of `OUT_LEN`. -/
def doneWith (s : State) (n : Word) : State := { s with outLen := n, done := true, phase := .idle }

/-- The command raises RANGE, and ALLOC only when every range is in range (60_exceptions.md R206). -/
def failsAsStated (i : Instr) (s : State) : Prop :=
  (¬rangesFit i s → endsAs (exec i s) (failedWith s 2)) ∧
    (rangesFit i s → ¬bufferFits i s → endsAs (exec i s) (failedWith s 3))

/-- The host operation can be expressed and reaches something that exists (10_state.md R22,
20_memory.md R60). -/
def hostOpExists (p : Params) (op : HostOp) : Prop :=
  match op with
  | .wr a _ => p.regBase ≤ a ∧ a < p.regBase + 0x100 ∧ (a - p.regBase) % 4 = 0
  | .rd a _ => p.regBase ≤ a ∧ a < p.regBase + 0x100 ∧ (a - p.regBase) % 4 = 0
  | .mw a bytes => a + bytes.length ≤ p.memBytes
  | .mr a n _ => a + n ≤ p.memBytes
  | .wait _ => True

/-- Everything a command leaves alone whatever it does: the parameters, OVR, IE, the operand
registers, the inputs to come and what the host has read. -/
def sameHostSide (s t : State) : Prop :=
  t.params = s.params ∧ t.ovr = s.ovr ∧ t.ie = s.ie ∧ t.srcAddr = s.srcAddr ∧
    t.srcLen = s.srcLen ∧ t.keyAddr = s.keyAddr ∧ t.keyLen = s.keyLen ∧ t.dstAddr = s.dstAddr ∧
    t.events = s.events ∧ t.seen = s.seen

/-- The state after `COMPRESS` was run on the 64-byte blocks 0 to `k` - 1 that stand from `addr` up,
in order, starting in `s`. -/
def compressBlocks (s : State) (addr : Nat) : Nat → Host.Outcome State Fault Refusal
  | 0 => .next s
  | k + 1 =>
    match compressBlocks s addr k with
    | .next t =>
      exec .compress { t with lat := { t.lat with src := BitVec.ofNat 32 (addr + 64 * k) } }
    | .fault r => .fault r
    | .refused r => .refused r

/-- `k` steps from `s`, ended early by a step that stops. -/
def stepsFrom (s : State) : Nat → Host.Outcome State Fault Refusal
  | 0 => .next s
  | k + 1 =>
    match stepsFrom s k with
    | .next t => step t
    | .fault r => .fault r
    | .refused r => .refused r

end Sys2Proof.Claims

open Sys2Proof Sys2Proof.Machine Sys2Proof.Claims

/-! Encoding -/

/-- 30_encoding.md R84, R85: the opcode map on all 2^32 command words, read from left to right and
from right to left. -/
def Obligations.OpcodeMapOnEveryWord : Prop :=
  ∀ c : Word,
    (decode c = .ok .pad ↔ c = 0x00000001) ∧ (decode c = .ok .expand ↔ c = 0x00000002) ∧
    (decode c = .ok .init ↔ c = 0x00000003) ∧ (decode c = .ok .compress ↔ c = 0x00000004) ∧
    (decode c = .ok .digest ↔ c = 0x00000005) ∧ (decode c = .ok .hmac ↔ c = 0x00000006) ∧
    ((∃ e, decode c = .error e) ↔ (c.toNat = 0 ∨ 7 ≤ c.toNat))

/-- Decode and encode agree, both ways, and the encoding of a command is a legal command word. -/
def Obligations.DecodeInvertsEncode : Prop :=
  (∀ i : Instr, decode (encode i) = .ok i ∧ commandWordWf (encode i) = true) ∧
    ∀ c i, decode c = .ok i → c = encode i

/-- Words of spec/opcode_table.json bit by bit, and illegal words by the reason (R85). -/
def Obligations.TableWordsDecode : Prop :=
  decodeTableWord 32 0b00000000000000000000000000000001 = some .pad ∧
    decodeTableWord 32 0b00000000000000000000000000000010 = some .expand ∧
    decodeTableWord 32 0b00000000000000000000000000000100 = some .compress ∧
    decodeTableWord 32 0b00000000000000000000000000000101 = some .digest ∧
    decode 0x00000000 = .error .reservedOpcode ∧ decode 0x00000007 = .error .reservedOpcode ∧
    decode 0x0000000F = .error .reservedOpcode ∧ decode 0x00000015 = .error .reservedBits

/-! The step -/

/-- A step on the engine's turn is `exec` of the command the decoder reads from the latched `op`, with
the engine's turn taken from the inputs; the engine also has the turn when no input is left and while
the host waits. -/
def Obligations.StepRunsLatchedCommand : Prop :=
  ∀ (s : State) (i : Instr) (rest : List Event), s.phase = .run →
    decode (s.lat.op.setWidth 32) = .ok i →
    (s.events = .engine :: rest ∨
      (s.events = rest ∧ (rest = [] ∨ ∃ name more, rest = .host (.wait name) :: more))) →
    step s = exec i { s with events := rest }

/-- The other turns: a host operation is served (a `wait` only when idle), reset is applied, and an
idle engine that is given the turn, or that has no input, does nothing. -/
def Obligations.StepServesHostAndReset : Prop :=
  ∀ (s : State) (rest : List Event),
    (∀ op, s.events = .host op :: rest → (s.phase = .idle ∨ ∀ name, op ≠ .wait name) →
      step s = State.serve { s with events := rest } op) ∧
    (s.events = .reset :: rest → step s = .next (State.applyReset { s with events := rest })) ∧
    (s.events = .engine :: rest → s.phase = .idle → step s = .next { s with events := rest }) ∧
    (s.events = [] → s.phase = .idle → step s = .next s)

/-- 30_encoding.md R88, the end of a `wait`: an idle machine whose next input is a `wait` records one
read of `STATUS`, with BUSY = 0 and the report as it stands, and changes nothing else. -/
def Obligations.WaitRecordsStatus : Prop :=
  ∀ (s : State) (name : Nat) (rest : List Event), s.phase = .idle →
    s.events = .host (.wait name) :: rest →
    ∃ x : Word, step s = .next (State.observe { s with events := rest } (.reg name x)) ∧
      x.getLsbD 0 = false ∧ x.getLsbD 1 = s.done ∧ x.getLsbD 2 = s.err ∧ x.getLsbD 3 = s.ovr ∧
      x.extractLsb' 4 4 = s.errcode ∧ x.extractLsb' 8 24 = 0

/-- The command placed by `withFetchWord` is the one the next step runs, on the operands latched from
the operand registers. -/
def Obligations.PlacedCommandRunsNext : Prop :=
  ∀ (s : State) (i : Instr),
    step (s.withFetchWord 32 (encode i).toNat) = exec i { s with
      done := false, err := false, errcode := 0, phase := .run, raceIn := false, raceOut := [],
      lat := ⟨opcodeOf i, s.srcAddr, s.srcLen, s.keyAddr, s.keyLen, s.dstAddr⟩ }

/-! The commands -/

/-- 40_padder.md R105. `OUT_LEN` is L; where L is 2^32, which its 32 bits do not hold, the spec states
no value and nothing is said of it (log entry 8). -/
def Obligations.PadWritesPaddedMessage : Prop :=
  decode 0x00000001 = .ok .pad ∧ ∀ s : State, failsAsStated .pad s ∧
    (rangesFit .pad s → bufferFits .pad s → unraced s →
      ∃ n : Word, (padLen s.lat.slen.toNat < 2 ^ 32 → n.toNat = padLen s.lat.slen.toNat) ∧
        endsAs (exec .pad s) (doneWith
          { s with mem := s.mem.writeBytes s.lat.dst.toNat (pad (message s)) } n))

/-- 41_expander.md R122. -/
def Obligations.ExpandWritesBothArrays : Prop :=
  decode 0x00000002 = .ok .expand ∧ ∀ s : State, failsAsStated .expand s ∧
    (rangesFit .expand s → unraced s →
      endsAs (exec .expand s) (doneWith
        { s with
          mem := s.mem.writeBytes s.lat.dst.toNat
            (wordsBytes (expand (block s)).1 ++ wordsBytes (expand (block s)).2) } 528))

/-- 42_compression.md R150: INIT cannot fail, and has no range the host could have written. -/
def Obligations.InitSetsChainingWords : Prop :=
  decode 0x00000003 = .ok .init ∧ ∀ s : State,
    endsAs (exec .init s) (doneWith
      { s with
        v := ⟨0x7380166F, 0x4914B2B9, 0x172442D7, 0xDA8A0600,
          0xA96F30BC, 0x163138AA, 0xE38DEE4D, 0xB0FB0E4E⟩ } 0)

/-- 42_compression.md R151. -/
def Obligations.CompressFoldsBlock : Prop :=
  decode 0x00000004 = .ok .compress ∧ ∀ s : State, failsAsStated .compress s ∧
    (rangesFit .compress s → unraced s →
      endsAs (exec .compress s) (doneWith { s with v := cf s.v (block s) } 0))

/-- 43_digest_driver.md R180. -/
def Obligations.DigestHashesMessage : Prop :=
  decode 0x00000005 = .ok .digest ∧ ∀ s : State, failsAsStated .digest s ∧
    (rangesFit .digest s → bufferFits .digest s → unraced s →
      endsAs (exec .digest s) (doneWith
        { s with
          v := digestState (message s)
          mem := s.mem.writeBytes s.lat.dst.toNat (ser (digestState (message s))) } 32))

/-- 43_digest_driver.md R181. -/
def Obligations.HmacAuthenticatesMessage : Prop :=
  decode 0x00000006 = .ok .hmac ∧ ∀ s : State, failsAsStated .hmac s ∧
    (rangesFit .hmac s → bufferFits .hmac s → unraced s →
      endsAs (exec .hmac s) (doneWith
        { s with
          v := hmacState (keyBytes s) (message s)
          mem := s.mem.writeBytes s.lat.dst.toNat (hmac (keyBytes s) (message s)) } 32))

/-- The frame of the six commands, raced or not, with 20_memory.md R69: every command answers a next
state and leaves the host's side alone; PAD and EXPAND leave `V` alone; no byte outside the
destination range changes (INIT and COMPRESS have none); and a command that fails changes neither
memory nor `V`. -/
def Obligations.CommandFrame : Prop :=
  ∀ (i : Instr) (s : State), ∃ t, exec i s = .next t ∧ sameHostSide s t ∧
    ((i = .pad ∨ i = .expand) → t.v = s.v) ∧
    (∀ a, ¬isDestination i s a → t.mem.read a = s.mem.read a) ∧
    (¬(rangesFit i s ∧ bufferFits i s) → t.mem = s.mem ∧ t.v = s.v) ∧
    (rangesFit i s → bufferFits i s → t.err = s.err ∧ t.errcode = s.errcode) ∧
    (¬(rangesFit i s ∧ bufferFits i s) → t.done = s.done)

/-- 70_reset_and_hazards.md R240, the result: a command whose ranges the host wrote still completes;
each destination byte is the host's value where the host wrote it, or the engine's. Where the host did
not write the command's input, the engine's bytes are the stated output and `V` holds the stated
words, also when destination bytes were raced. Where it did, nothing is said of the engine's bytes or
of `V`. -/
def Obligations.RacedCommandCompletes : Prop :=
  ∀ (i : Instr) (s : State), s.mem.wf = true → rangesFit i s → bufferFits i s →
    ∃ t, exec i s = .next t ∧ t.done = true ∧ t.err = s.err ∧ t.phase = .idle ∧
      (bytesWritten i s < 2 ^ 32 → t.outLen.toNat = bytesWritten i s) ∧
      (s.raceIn = false → t.v = chainingOf i s) ∧
      ∀ k, k < bytesWritten i s →
        (s.lat.dst.toNat + k ∈ s.raceOut ∧
          t.mem.read (s.lat.dst.toNat + k) = s.mem.read (s.lat.dst.toNat + k)) ∨
        s.raceIn = true ∨
        t.mem.read (s.lat.dst.toNat + k) = (outputOf i s).getD k 0

/-- 43_digest_driver.md R180: "`V` holds the digest as words after the command". -/
def Obligations.ChainingWordsAreOutputWords : Prop :=
  ∀ (i : Instr) (s : State), (i = .digest ∨ i = .hmac) → s.mem.wf = true → unraced s →
    rangesFit i s → bufferFits i s →
    ∃ t, exec i s = .next t ∧
      ∀ k : Fin 8, t.v.get k = be32 (t.mem.readBytes (s.lat.dst.toNat + 4 * k.val) 4)

/-- 41_expander.md R122: "`W[0..15]` written back equals the input block byte for byte", also where
the destination overlaps the source. -/
def Obligations.ExpandRepeatsItsBlock : Prop :=
  ∀ s : State, s.mem.wf = true → unraced s → rangesFit .expand s →
    ∃ t, exec .expand s = .next t ∧ t.mem.readBytes s.lat.dst.toNat 64 = block s

/-- 42_compression.md R151, R148: COMPRESS of each 64-byte block of `pad(m)` in order, from `V` = IV,
leaves `V` equal to the digest state of `m`, and memory as it was. -/
def Obligations.CompressChainIsDigest : Prop :=
  ∀ (s : State) (addr : Nat) (m : List Byte), s.params.wf = true → unraced s → s.v = iv →
    addr + padLen m.length ≤ s.params.memBytes →
    s.mem.readBytes addr (padLen m.length) = pad m →
    ∃ t, compressBlocks s addr (padLen m.length / 64) = .next t ∧
      t.v = digestState m ∧ t.mem = s.mem

/-- 43_digest_driver.md R172: where DIGEST and HMAC succeed, what they do does not depend on `V`. -/
def Obligations.DigestAndHmacIgnoreChainingWords : Prop :=
  ∀ (i : Instr) (s : State) (v : Words8), (i = .digest ∨ i = .hmac) →
    rangesFit i s → bufferFits i s →
    ∃ t, exec i s = .next t ∧ exec i { s with v := v } = .next t

/-- 30_encoding.md R86: a command "ignores the others, which may hold any value": latched operands
that agree on the ones the command reads give the same state. -/
def Obligations.UnreadOperandsAreIgnored : Prop :=
  ∀ (s : State) (o : Latched),
    exec .init { s with lat := o } = exec .init s ∧
    (o.src = s.lat.src → exec .compress { s with lat := o } = exec .compress s) ∧
    (o.src = s.lat.src → o.dst = s.lat.dst →
      exec .expand { s with lat := o } = exec .expand s) ∧
    (o.src = s.lat.src → o.slen = s.lat.slen → o.dst = s.lat.dst →
      exec .pad { s with lat := o } = exec .pad s ∧
        exec .digest { s with lat := o } = exec .digest s) ∧
    (o.src = s.lat.src → o.slen = s.lat.slen → o.dst = s.lat.dst → o.key = s.lat.key →
      o.klen = s.lat.klen → exec .hmac { s with lat := o } = exec .hmac s)

/-- 43_digest_driver.md R177: two keys longer than 64 bytes, or a key and its digest, that collapse to
the same 32 bytes give the same HMAC for the same message. -/
def Obligations.CollapsedKeysGiveSameHmac : Prop :=
  ∀ (k : List Byte) (m : List Byte), 64 < k.length →
    hmac k m = hmac (digest k) m ∧
      ∀ k', 64 < k'.length → digest k' = digest k → hmac k' m = hmac k m

/-! The functions of the four components -/

/-- 00_scope.md R9: bit `n` of the rotated word. -/
def Obligations.RotateMovesEveryBit : Prop :=
  ∀ (x : Word) (n k : Nat), k < 32 →
    (rotl x n).getLsbD ((k + n) % 32) = x.getLsbD k

/-- 00_scope.md R11: the value of `BE32` with the first byte most significant, `BE32_BYTES` as its
inverse, and `BE64_BYTES` with the high word first. -/
def Obligations.BigEndianBytesInvertWords : Prop :=
  (∀ a b c d : Byte, (be32 [a, b, c, d]).toNat =
      a.toNat * 2 ^ 24 + b.toNat * 2 ^ 16 + c.toNat * 2 ^ 8 + d.toNat) ∧
  (∀ x : Word, be32 (be32Bytes x) = x) ∧
  (∀ a b c d : Byte, be32Bytes (be32 [a, b, c, d]) = [a, b, c, d]) ∧
  ∀ hi lo : Word, be64Bytes (hi ++ lo) = be32Bytes hi ++ be32Bytes lo

/-- 40_padder.md R101, with the bounds of R103: the length of a padded string. -/
def Obligations.PaddedLength : Prop :=
  (∀ m : List Byte, (pad m).length = padLen m.length) ∧
    ∀ n : Nat, padLen n = 64 * ((n + 8) / 64 + 1) ∧ padLen n % 64 = 0 ∧
      n + 9 ≤ padLen n ∧ padLen n ≤ n + 72

/-- 40_padder.md R102: the byte layout of a padded string, for every length the engine forms. -/
def Obligations.PaddedLayout : Prop :=
  ∀ m : List Byte, m.length ≤ 2 ^ 32 + 63 →
    slice (pad m) 0 m.length = m ∧ (pad m).getD m.length 0 = 0x80 ∧
    (∀ k, m.length + 1 ≤ k → k < padLen m.length - 8 → (pad m).getD k 0 = 0x00) ∧
    slice (pad m) (padLen m.length - 8) 4 = be32Bytes (BitVec.ofNat 32 (m.length >>> 29)) ∧
    slice (pad m) (padLen m.length - 4) 4 = be32Bytes (BitVec.ofNat 32 (8 * m.length % 2 ^ 32))

/-- 41_expander.md R120, R121: the recurrences hold between the words the expander produces. -/
def Obligations.ExpansionSatisfiesRecurrence : Prop :=
  ∀ blk : List Byte,
    (expand blk).1.length = 68 ∧ (expand blk).2.length = 64 ∧
    (∀ i, i < 16 → (expand blk).1.getD i 0 = be32 (slice blk (4 * i) 4)) ∧
    (∀ j, 16 ≤ j → j < 68 → (expand blk).1.getD j 0 =
      p1 ((expand blk).1.getD (j - 16) 0 ^^^ (expand blk).1.getD (j - 9) 0
          ^^^ rotl ((expand blk).1.getD (j - 3) 0) 15)
        ^^^ rotl ((expand blk).1.getD (j - 13) 0) 7 ^^^ (expand blk).1.getD (j - 6) 0) ∧
    (∀ j, j < 64 →
      (expand blk).2.getD j 0 = (expand blk).1.getD j 0 ^^^ (expand blk).1.getD (j + 4) 0)

/-- 42_compression.md R142, bit by bit: parity in the first 16 rounds; then `FF` is 1 where at least
two of its arguments are, and `GG` takes the bit of `Y` where `X` is 1 and the bit of `Z` where not. -/
def Obligations.BooleanFunctionsBitByBit : Prop :=
  ∀ (j k : Nat) (x y z : Word), k < 32 →
    (j < 16 → (ff j x y z).getLsbD k = ((x.getLsbD k ^^ y.getLsbD k) ^^ z.getLsbD k) ∧
      gg j x y z = ff j x y z) ∧
    (16 ≤ j → (ff j x y z).getLsbD k =
        decide (2 ≤ (x.getLsbD k).toNat + (y.getLsbD k).toNat + (z.getLsbD k).toNat) ∧
      (gg j x y z).getLsbD k = if x.getLsbD k then y.getLsbD k else z.getLsbD k)

/-- 43_digest_driver.md R178: the buffer HMAC asks for holds each of the three strings it pads, and is
the length of one of them. -/
def Obligations.HmacNeedIsLongestPaddedString : Prop :=
  ∀ (key m : List Byte),
    (64 < key.length → (pad key).length ≤ hmacNeed key.length m.length) ∧
    (pad (keyPad 0x36 (effectiveKey key) ++ m)).length ≤ hmacNeed key.length m.length ∧
    (pad (keyPad 0x5C (effectiveKey key) ++ hmacInner key m)).length
      ≤ hmacNeed key.length m.length ∧
    (hmacNeed key.length m.length = (pad (keyPad 0x36 (effectiveKey key) ++ m)).length ∨
      (64 < key.length ∧ hmacNeed key.length m.length = (pad key).length))

/-- The engine, running on its internal state, computes the functions of the spec: `CF` (R146) from
any expansion arrays, working registers and counters, `DigestState` (R170) from any padded buffer, and
`HmacState` (R175) from any HMAC context. -/
def Obligations.EngineComputesSm3 : Prop :=
  ∀ e : Engine,
    (∀ (v : Words8) (blk : List Byte), (e.compress v blk).1 = cf v blk) ∧
    (∀ m : List Byte, (e.digest m).1 = digestState m) ∧
    (∀ key m : List Byte, (e.hmac key m).1 = hmacState key m)

/-- 95_test_vectors.md S1 with 90_conflicts.md C1: the digest of "abc". -/
def Obligations.DigestOfAbc : Prop :=
  digestState [0x61, 0x62, 0x63] =
    ⟨0x66c7f0f4, 0x62eeedd9, 0xd1f2d46b, 0xdc10e4e2,
      0x4167c487, 0x5cf2f7a2, 0x297da02b, 0x8f4ba8e0⟩

/-! Acceptance and the report -/

/-- 30_encoding.md R82: a host write of `c` to `CMD` while BUSY = 0. -/
def Obligations.AcceptanceOfCommandWord : Prop :=
  ∀ (s : State) (c : Word), s.phase = .idle →
    ((c.extractLsb' 4 28 ≠ 0 ∨ (c.extractLsb' 0 4).toNat < 1 ∨ 6 < (c.extractLsb' 0 4).toNat) →
      s.serve (.wr s.params.regBase c) =
        .next { s with done := false, err := true, errcode := 1, outLen := 0 }) ∧
    (c.extractLsb' 4 28 = 0 → 1 ≤ (c.extractLsb' 0 4).toNat → (c.extractLsb' 0 4).toNat ≤ 6 →
      s.serve (.wr s.params.regBase c) =
        .next { s with
          done := false, err := false, errcode := 0, phase := .run,
          lat := ⟨c.extractLsb' 0 4, s.srcAddr, s.srcLen, s.keyAddr, s.keyLen, s.dstAddr⟩,
          raceIn := false, raceOut := [] })

/-- 10_state.md R28: a `CMD` write while BUSY = 1 changes nothing but OVR; a `STATUS` write with bit 3
set and reset clear OVR, and nothing else does. -/
def Obligations.OverrunIsDroppedAndSticky : Prop :=
  (∀ (s : State) (c : Word), s.phase = .run →
      s.serve (.wr s.params.regBase c) = .next { s with ovr := true }) ∧
  (∀ (s : State) (w : Word), w.getLsbD 3 = true →
      ∃ t, s.serve (.wr (s.params.regBase + 0x04) w) = .next t ∧ t.ovr = false) ∧
  (∀ s : State, s.applyReset.ovr = false) ∧
    ∀ s t : State, step s = .next t → s.ovr = true → t.ovr = false →
      (∃ rest, s.events = .reset :: rest) ∨
      (∃ w rest, s.events = .host (.wr (s.params.regBase + 0x04) w) :: rest ∧
        w.getLsbD 3 = true)

/-- 10_state.md R25: BUSY rises only by the acceptance of a legal command word, and falls only when
the command completes, which sets exactly one of DONE and ERR, or by reset. -/
def Obligations.BusyFromAcceptanceToCompletion : Prop :=
  ∀ s t : State, s.Inv → step s = .next t →
    (s.busy = false → t.busy = true →
      ∃ c i rest, s.events = .host (.wr s.params.regBase c) :: rest ∧ decode c = .ok i ∧
        t.lat.op = opcodeOf i) ∧
    (s.busy = true → t.busy = false →
      (∃ rest, s.events = .reset :: rest) ∨
      (∃ i, s.latchedInstr = some i ∧
        ((rangesFit i s ∧ bufferFits i s ∧ t.done = true ∧ t.err = false) ∨
          (¬(rangesFit i s ∧ bufferFits i s) ∧ t.done = false ∧ t.err = true))))

/-- 10_state.md R26: DONE rises only when a command completes without error, and falls only by a
`CMD` write while BUSY = 0, by a `STATUS` write with bit 1 set, or by reset. -/
def Obligations.DoneRisesOnSuccessOnly : Prop :=
  ∀ s t : State, step s = .next t →
    (s.done = false → t.done = true →
      s.busy = true ∧ t.busy = false ∧
        ∃ i, s.latchedInstr = some i ∧ rangesFit i s ∧ bufferFits i s) ∧
    (s.done = true → t.done = false →
      (∃ rest, s.events = .reset :: rest) ∨
      (∃ c rest, s.busy = false ∧ s.events = .host (.wr s.params.regBase c) :: rest) ∨
      (∃ w rest, s.events = .host (.wr (s.params.regBase + 0x04) w) :: rest ∧
        w.getLsbD 1 = true))

/-- 10_state.md R29: the bits of `STATUS` on a read, ERRCODE being 0 whenever ERR = 0, and what a
write of `w` does to each. -/
def Obligations.StatusReadsAndWrites : Prop :=
  ∀ (s : State) (w : Word),
    (∃ x : Word, s.serve (.rd (s.params.regBase + 0x04) 0) = .next (s.observe (.reg 0 x)) ∧
      x.getLsbD 0 = decide (s.phase = .run) ∧ x.getLsbD 1 = s.done ∧ x.getLsbD 2 = s.err ∧
      x.getLsbD 3 = s.ovr ∧ x.extractLsb' 4 4 = s.errcode ∧ x.extractLsb' 8 24 = 0 ∧
      (s.Inv → s.err = false → x.extractLsb' 4 4 = 0)) ∧
    s.serve (.wr (s.params.regBase + 0x04) w) = .next { s with
      done := if w.getLsbD 1 then false else s.done
      err := if w.getLsbD 2 then false else s.err
      errcode := if w.getLsbD 2 then 0 else s.errcode
      ovr := if w.getLsbD 3 then false else s.ovr }

/-- 60_exceptions.md R205: a step that sets ERR has written neither `V` nor memory, sets `OUT_LEN` to
0 and leaves DONE = 0, with a code that names the failure. -/
def Obligations.FailureLeavesNoPartialResult : Prop :=
  ∀ s t : State, s.Inv → step s = .next t → s.err = false → t.err = true →
    t.v = s.v ∧ t.mem = s.mem ∧ t.outLen = 0 ∧ t.done = false ∧ t.phase = .idle ∧
      (t.errcode = 1 ∨ t.errcode = 2 ∨ t.errcode = 3)

/-- 60_exceptions.md R210: the interrupt is the level it is said to be; it is 1 after every command
that ends while IE = 1 and after a rejection while IE = 1; it is 0 after the acceptance of a legal
command, after a `STATUS` write of bits 1 and 2, after a clear of IE, and after reset. -/
def Obligations.InterruptLevel : Prop :=
  ∀ s : State,
    (s.irq = true ↔ s.ie = true ∧ (s.done = true ∨ s.err = true)) ∧
    (∀ i, s.ie = true → ∃ t, exec i s = .next t ∧ t.irq = true) ∧
    (∀ c, s.phase = .idle → ∃ t, s.serve (.wr s.params.regBase c) = .next t ∧
      (s.ie = true → t.irq = !(decide (1 ≤ c.toNat) && decide (c.toNat ≤ 6)))) ∧
    (∀ w : Word, w.getLsbD 1 = true → w.getLsbD 2 = true →
      ∃ t, s.serve (.wr (s.params.regBase + 0x04) w) = .next t ∧ t.irq = false) ∧
    (∀ w : Word, ∃ t, s.serve (.wr (s.params.regBase + 0x08) w) = .next t ∧
      t.irq = (w.getLsbD 0 && (s.done || s.err))) ∧
    s.applyReset.irq = false

/-! The register port and the data memory -/

/-- 10_state.md R39: a write to an operand register takes effect at once and at any time, a read
returns the last value written, and a running command is not affected. -/
def Obligations.OperandRegisters : Prop :=
  ∀ (s : State) (w : Word) (name : Nat),
    (∀ off, (off = 0x10 ∨ off = 0x14 ∨ off = 0x18 ∨ off = 0x1C ∨ off = 0x20) →
      ∃ t, s.serve (.wr (s.params.regBase + off) w) = .next t ∧
        t.serve (.rd (s.params.regBase + off) name) = .next (t.observe (.reg name w)) ∧
        ∀ i, ∃ u, exec i s = .next u ∧
          exec i t = .next { u with
            srcAddr := t.srcAddr, srcLen := t.srcLen, keyAddr := t.keyAddr, keyLen := t.keyLen,
            dstAddr := t.dstAddr }) ∧
    s.serve (.wr (s.params.regBase + 0x10) w) = .next { s with srcAddr := w } ∧
    s.serve (.wr (s.params.regBase + 0x14) w) = .next { s with srcLen := w } ∧
    s.serve (.wr (s.params.regBase + 0x18) w) = .next { s with keyAddr := w } ∧
    s.serve (.wr (s.params.regBase + 0x1C) w) = .next { s with keyLen := w } ∧
    s.serve (.wr (s.params.regBase + 0x20) w) = .next { s with dstAddr := w }

/-- 10_state.md R38: every reserved offset reads 0, and a write to it has no effect. -/
def Obligations.ReservedOffsets : Prop :=
  ∀ (s : State) (off : Nat) (w : Word) (name : Nat), off % 4 = 0 →
    ((0x24 ≤ off ∧ off ≤ 0x3C) ∨ (0x60 ≤ off ∧ off ≤ 0xFC)) →
    s.serve (.rd (s.params.regBase + off) name) = .next (s.observe (.reg name 0)) ∧
      s.serve (.wr (s.params.regBase + off) w) = .next s

/-- 10_state.md R30, R36, R24, R47: the read-only registers ignore writes and `CMD` reads 0. A read
of `V[i]` or `OUT_LEN` returns some word, at any time, and changes nothing but what the host has read;
with BUSY = 0 the word is the value the register holds, and with BUSY = 1 nothing is said of it. -/
def Obligations.ResultRegistersAreReadOnly : Prop :=
  ∀ (s : State) (w : Word) (name : Nat),
    s.serve (.wr (s.params.regBase + 0x0C) w) = .next s ∧
    s.serve (.rd s.params.regBase name) = .next (s.observe (.reg name 0)) ∧
    (∃ x : Word, s.serve (.rd (s.params.regBase + 0x0C) name) = .next (s.observe (.reg name x)) ∧
      (s.phase = .idle → x = s.outLen)) ∧
    ∀ i : Fin 8, s.serve (.wr (s.params.regBase + (0x40 + 4 * i.val)) w) = .next s ∧
      ∃ x : Word, s.serve (.rd (s.params.regBase + (0x40 + 4 * i.val)) name) =
          .next (s.observe (.reg name x)) ∧
        (s.phase = .idle → x = s.v.get i)

/-- 10_state.md R37: `INT_EN` keeps bit 0 of what is written, at any time, and reads it back with the
other bits 0. -/
def Obligations.InterruptEnableRegister : Prop :=
  ∀ (s : State) (w : Word) (name : Nat),
    ∃ t, s.serve (.wr (s.params.regBase + 0x08) w) = .next t ∧
      t = { s with ie := w.getLsbD 0 } ∧
      t.serve (.rd (s.params.regBase + 0x08) name) =
        .next (t.observe (.reg name (w &&& 0x00000001)))

/-- 10_state.md R22 with 93_implementation_defined.md U17: a register access that is misaligned or
outside the window is refused, and a memory access to an address that does not exist faults. -/
def Obligations.InexpressibleAccessStops : Prop :=
  ∀ (s : State) (a : Nat) (w : Word) (name n : Nat) (bytes : List Byte),
    (¬hostOpExists s.params (.wr a w) →
      s.serve (.wr a w) = .refused .registerAccessOutsidePort ∧
        s.serve (.rd a name) = .refused .registerAccessOutsidePort) ∧
    (s.params.memBytes < a + bytes.length → s.serve (.mw a bytes) = .fault .hostMemoryOutside) ∧
    (s.params.memBytes < a + n → s.serve (.mr a n name) = .fault .hostMemoryOutside)

/-- 20_memory.md R61: with no command running, the host reads back the bytes it wrote, and every other
byte reads as before. -/
def Obligations.HostReadsBackItsWrite : Prop :=
  ∀ (s : State) (a : Nat) (bytes : List Byte) (name : Nat), s.mem.wf = true → s.phase = .idle →
    a + bytes.length ≤ s.params.memBytes →
    ∃ t, s.serve (.mw a bytes) = .next t ∧ t = { s with mem := t.mem } ∧
      t.serve (.mr a bytes.length name) = .next (t.observe (.mem name bytes)) ∧
      ∀ x, ¬(a ≤ x ∧ x < a + bytes.length) → t.mem.read x = s.mem.read x

/-- 70_reset_and_hazards.md R240, the host's side: while a command runs, a host write reaches memory
and is noted for the ranges it touches; nothing else changes. -/
def Obligations.HostWriteDuringCommand : Prop :=
  ∀ (s : State) (i : Instr) (a : Nat) (bytes : List Byte), s.phase = .run →
    s.latchedInstr = some i → a + bytes.length ≤ s.params.memBytes →
    ∃ ri ro, s.serve (.mw a bytes) =
        .next { s with mem := s.mem.writeBytes a bytes, raceIn := ri, raceOut := ro } ∧
      (ri = true ↔ s.raceIn = true ∨ ∃ x, a ≤ x ∧ x < a + bytes.length ∧ isSource i s x) ∧
      ∀ x, x ∈ ro ↔ x ∈ s.raceOut ∨ (a ≤ x ∧ x < a + bytes.length ∧ isDestination i s x)

/-- 70_reset_and_hazards.md R240: a host memory read returns the bytes of memory, but for the
destination range of a running command, of whose bytes nothing is said. -/
def Obligations.HostReadDuringCommand : Prop :=
  ∀ (s : State) (a n name : Nat), a + n ≤ s.params.memBytes →
    ∃ bytes, s.serve (.mr a n name) = .next (s.observe (.mem name bytes)) ∧ bytes.length = n ∧
      ∀ k, k < n →
        (s.phase = .idle ∨ ∀ i, s.latchedInstr = some i → ¬isDestination i s (a + k)) →
        bytes.getD k 0 = s.mem.read (a + k)

/-! Reset -/

/-- 70_reset_and_hazards.md R230: the registers after reset, at power-up and by the reset input. -/
def Obligations.ResetValues : Prop :=
  ∀ (s : State) (rest : List Event), s.events = .reset :: rest →
    ∃ t, step s = .next t ∧ t.events = rest ∧ t.params = s.params ∧
      ∀ u, (u = t ∨ u = State.reset) →
        u.statusWord = 0x00000000 ∧ u.phase = .idle ∧ u.ie = false ∧ u.outLen = 0 ∧
        u.srcAddr = 0 ∧ u.srcLen = 0 ∧ u.keyAddr = 0 ∧ u.keyLen = 0 ∧ u.dstAddr = 0 ∧
        u.v = iv ∧ u.irq = false

/-- 70_reset_and_hazards.md R231, R232: reset changes memory only in the destination range of a
command that was running, and not at all where that command would have failed or none was running. -/
def Obligations.ResetKeepsMemory : Prop :=
  ∀ s : State,
    (s.phase = .idle → s.applyReset.mem = s.mem) ∧
    ∀ i, s.phase = .run → s.latchedInstr = some i →
      (∀ a, ¬isDestination i s a → s.applyReset.mem.read a = s.mem.read a) ∧
      (¬(rangesFit i s ∧ bufferFits i s) → s.applyReset.mem = s.mem) ∧
      s.applyReset.done = false ∧ s.applyReset.err = false

/-! The whole machine -/

/-- 10_state.md R30: `V` is written only by INIT, COMPRESS, DIGEST and HMAC, and only when the
command completes without error; reset sets it to IV. -/
def Obligations.ChainingWordsWriters : Prop :=
  ∀ s t : State, step s = .next t → t.v ≠ s.v →
    ((∃ rest, s.events = .reset :: rest) ∧ t.v = iv) ∨
    (s.busy = true ∧ t.done = true ∧ t.err = s.err ∧
      ∃ i, s.latchedInstr = some i ∧ rangesFit i s ∧ bufferFits i s ∧
        (i = .init ∨ i = .compress ∨ i = .digest ∨ i = .hmac))

/-- The invariant holds right after reset. -/
def Obligations.ResetSatisfiesInvariant : Prop := State.reset.Inv

/-- Every step keeps the invariant and the parameters. -/
def Obligations.StepKeepsInvariant : Prop :=
  ∀ s t : State, s.Inv → step s = .next t → t.Inv ∧ t.params = s.params

/-- From every state that satisfies the invariant, a step answers a next state unless the host's next
operation cannot be expressed or reaches no memory. No command, on any operands, stops the machine. -/
def Obligations.MachineNeverStops : Prop :=
  ∀ s : State, s.Inv →
    (∀ op rest, s.events = .host op :: rest → hostOpExists s.params op) →
    ∃ t, step s = .next t

/-- 00_scope.md R8, 70_reset_and_hazards.md R243: whatever inputs stand before it, a running command
runs on through at most as many steps as there are inputs, and then a step ends it: by completion,
with exactly one of DONE and ERR, or by reset. The only other end is that a host operation that cannot
be expressed or reaches no memory stops the machine, with the stop of its own name. -/
def Obligations.RunningCommandCompletes : Prop :=
  ∀ s : State, s.Inv → s.busy = true →
    ∃ k t, k ≤ s.events.length ∧ stepsFrom s k = .next t ∧ t.busy = true ∧
      ((∃ u i, step t = .next u ∧ u.busy = false ∧ t.latchedInstr = some i ∧
          u.done = !u.err ∧ (u.done = true ↔ rangesFit i t ∧ bufferFits i t)) ∨
        (∃ u rest, t.events = .reset :: rest ∧ step t = .next u ∧ u.busy = false) ∨
        (∃ op rest, t.events = .host op :: rest ∧ ¬hostOpExists s.params op ∧
          (step t = .fault .hostMemoryOutside ∨
            step t = .refused .registerAccessOutsidePort)))
end

