-- ==== Sys2Proof/Laws/Engine.lean ====
section
/-! SUPPORT. What the engine's operations leave alone in its internal state: the padded buffer during
the rounds, and the HMAC context during a digest. -/

namespace Sys2Proof.Machine

/-- `e'` differs from `e` at most in the fields the rounds write: `W`, `Wp`, `A` to `H`, `j`, `b`. -/
def Engine.SameBuffers (e e' : Engine) : Prop :=
  e'.pb = e.pb ∧ e'.key = e.key ∧ e'.ipad = e.ipad ∧ e'.opad = e.opad ∧ e'.inner = e.inner

/-- `e'` has the HMAC context of `e`. -/
def Engine.SameContext (e e' : Engine) : Prop :=
  e'.key = e.key ∧ e'.ipad = e.ipad ∧ e'.opad = e.opad ∧ e'.inner = e.inner

theorem Engine.sameBuffers_self (e : Engine) : e.SameBuffers e := ⟨rfl, rfl, rfl, rfl, rfl⟩

theorem Engine.SameBuffers.trans {e e' e'' : Engine} (h : e.SameBuffers e')
    (h' : e'.SameBuffers e'') : e.SameBuffers e'' :=
  ⟨h'.1.trans h.1, h'.2.1.trans h.2.1, h'.2.2.1.trans h.2.2.1, h'.2.2.2.1.trans h.2.2.2.1,
    h'.2.2.2.2.trans h.2.2.2.2⟩

theorem Engine.runRound_sameBuffers (e : Engine) (j : Nat) : e.SameBuffers (e.runRound j) := by
  simp [Engine.SameBuffers, Engine.runRound]

theorem Engine.foldRounds_sameBuffers (l : List Nat) (e : Engine) :
    e.SameBuffers (l.foldl Engine.runRound e) := by
  induction l generalizing e with
  | nil => exact Engine.sameBuffers_self e
  | cons j l ih => exact (e.runRound_sameBuffers j).trans (ih (e.runRound j))

/-- A compression writes neither the padded buffer nor the HMAC context. -/
theorem Engine.compress_sameBuffers (e : Engine) (v : Words8) (blk : List Byte) :
    e.SameBuffers (e.compress v blk).2 := by
  have h : e.SameBuffers { e.fillExpansion blk with work := v } := by
    simp [Engine.SameBuffers, Engine.fillExpansion]
  exact h.trans (Engine.foldRounds_sameBuffers (List.range 64) _)

theorem Engine.blockStep_sameBuffers (ve : Words8 × Engine) (b : Nat) :
    ve.2.SameBuffers (Engine.blockStep ve b).2 := by
  have h : ve.2.SameBuffers { ve.2 with b := b } := by simp [Engine.SameBuffers]
  exact h.trans (Engine.compress_sameBuffers _ _ _)

theorem Engine.foldBlocks_sameBuffers (l : List Nat) (ve : Words8 × Engine) :
    ve.2.SameBuffers (l.foldl Engine.blockStep ve).2 := by
  induction l generalizing ve with
  | nil => exact Engine.sameBuffers_self _
  | cons b l ih => exact (Engine.blockStep_sameBuffers ve b).trans (ih (Engine.blockStep ve b))

/-- A digest fills the padded buffer and leaves the HMAC context alone. -/
theorem Engine.digest_sameContext (e : Engine) (m : List Byte) :
    e.SameContext (e.digest m).2 := by
  have h := Engine.foldBlocks_sameBuffers (List.range ((e.fillPad m).pb.length / 64))
    (iv, e.fillPad m)
  exact ⟨h.2.1, h.2.2.1, h.2.2.2.1, h.2.2.2.2⟩

/-- A digest leaves the padded message in the padded buffer. -/
theorem Engine.digest_pb (e : Engine) (m : List Byte) : (e.digest m).2.pb = pad m :=
  (Engine.foldBlocks_sameBuffers (List.range ((e.fillPad m).pb.length / 64)) (iv, e.fillPad m)).1

end Sys2Proof.Machine
end

