-- ==== Sys2Proof/Laws/Memory.lean ====
section
/-! SUPPORT. The laws of the data memory: a read after a write, and the canonical form, which every
memory operation keeps. -/

namespace Sys2Proof.Machine

/-! Reading -/

theorem Memory.readBytes_length (m : Memory) (a n : Nat) : (m.readBytes a n).length = n := by
  simp [Memory.readBytes]

theorem Memory.readBytes_getD (m : Memory) (a n i : Nat) (h : i < n) :
    (m.readBytes a n).getD i 0 = m.read (a + i) := by
  simp [Memory.readBytes, List.getD_eq_getElem?_getD, h]

theorem Memory.readBytes_congr {m m' : Memory} {a n : Nat}
    (h : ∀ x, a ≤ x → x < a + n → m.read x = m'.read x) :
    m.readBytes a n = m'.readBytes a n := by
  refine List.map_congr_left fun i hi => h _ (Nat.le_add_right _ _) ?_
  have := List.mem_range.mp hi
  omega

/-- Below every listed address nothing is listed. -/
theorem Memory.read_of_risingFrom {m : Memory} {lo a : Nat} (h : m.risingFrom lo = true)
    (ha : a < lo) : m.read a = Memory.launchByte := by
  induction m generalizing lo with
  | nil => rfl
  | cons c rest ih =>
    obtain ⟨k, b⟩ := c
    simp only [Memory.risingFrom, Bool.and_eq_true, decide_eq_true_eq] at h
    rw [Memory.read, if_neg (by omega), ih h.2 (by omega)]

/-! One byte written -/

/-- A write leaves every other byte as it is. -/
theorem Memory.read_write_other (m : Memory) {a x : Nat} (b : Byte) (h : x ≠ a) :
    (m.write a b).read x = m.read x := by
  induction m with
  | nil => simp only [Memory.write]; split <;> simp [Memory.read, Ne.symm h]
  | cons c rest ih =>
    obtain ⟨k, d⟩ := c
    simp only [Memory.write]
    split
    · split <;> simp [Memory.read, Ne.symm h]
    · split
      · subst a; split <;> simp [Memory.read, Ne.symm h]
      · simp [Memory.read, ih]

theorem Memory.read_write_same_of_rising {m : Memory} {lo : Nat} (a : Nat) (b : Byte)
    (h : m.risingFrom lo = true) : (m.write a b).read a = b := by
  induction m generalizing lo with
  | nil => simp only [Memory.write]; split <;> simp_all [Memory.read]
  | cons c rest ih =>
    obtain ⟨k, d⟩ := c
    simp only [Memory.risingFrom, Bool.and_eq_true, decide_eq_true_eq] at h
    simp only [Memory.write]
    split
    · split
      · rw [Memory.read, if_neg (by omega), Memory.read_of_risingFrom h.2 (by omega)]
        exact Eq.symm ‹b = _›
      · simp [Memory.read]
    · split
      · subst a
        split
        · rw [Memory.read_of_risingFrom h.2 (by omega)]; exact Eq.symm ‹b = _›
        · simp [Memory.read]
      · rw [Memory.read, if_neg (by omega)]; exact ih h.2

theorem Memory.risingFrom_mono {m : Memory} {lo lo' : Nat} (h : m.risingFrom lo = true)
    (hl : lo' ≤ lo) : m.risingFrom lo' = true := by
  cases m with
  | nil => rfl
  | cons c rest =>
    simp only [Memory.risingFrom, Bool.and_eq_true, decide_eq_true_eq] at h ⊢
    exact ⟨by omega, h.2⟩

theorem Memory.risingFrom_write {m : Memory} {lo a : Nat} (b : Byte)
    (h : m.risingFrom lo = true) (ha : lo ≤ a) : (m.write a b).risingFrom lo = true := by
  induction m generalizing lo with
  | nil => simp only [Memory.write]; split <;> simp [Memory.risingFrom, ha]
  | cons c rest ih =>
    obtain ⟨k, d⟩ := c
    have h' := h
    simp only [Memory.risingFrom, Bool.and_eq_true, decide_eq_true_eq] at h'
    simp only [Memory.write]
    split
    · split
      · exact h
      · simp only [Memory.risingFrom, Bool.and_eq_true, decide_eq_true_eq]
        exact ⟨ha, by omega, h'.2⟩
    · split
      · subst a
        split
        · exact Memory.risingFrom_mono h'.2 (by omega)
        · simpa [Memory.risingFrom, ha] using h'.2
      · simp only [Memory.risingFrom, Bool.and_eq_true, decide_eq_true_eq]
        exact ⟨h'.1, ih h'.2 (by omega)⟩

/-- Every cell of the memory after a write is the written one or was there before. -/
theorem Memory.mem_write {m : Memory} {a : Nat} {b : Byte} {c : Host.Cell}
    (h : c ∈ m.write a b) : (c = (a, b) ∧ b ≠ Memory.launchByte) ∨ c ∈ m := by
  induction m with
  | nil => simp only [Memory.write] at h; split at h <;> simp_all
  | cons d rest ih =>
    obtain ⟨k, e⟩ := d
    simp only [Memory.write] at h
    split at h
    · split at h
      · exact .inr h
      · rcases List.mem_cons.mp h with rfl | h
        · exact .inl ⟨rfl, ‹_›⟩
        · exact .inr h
    · split at h
      · split at h
        · exact .inr (List.mem_cons_of_mem _ h)
        · rcases List.mem_cons.mp h with rfl | h
          · exact .inl ⟨rfl, ‹_›⟩
          · exact .inr (List.mem_cons_of_mem _ h)
      · rcases List.mem_cons.mp h with rfl | h
        · exact .inr List.mem_cons_self
        · exact (ih h).imp_right (List.mem_cons_of_mem _)

/-! The canonical form -/

theorem Memory.wf_nil : Memory.wf [] = true := rfl

theorem Memory.rising_of_wf {m : Memory} (h : m.wf = true) : m.risingFrom 0 = true := by
  simp only [Memory.wf, Bool.and_eq_true] at h; exact h.1

theorem Memory.read_write_same {m : Memory} (h : m.wf = true) (a : Nat) (b : Byte) :
    (m.write a b).read a = b :=
  Memory.read_write_same_of_rising a b (Memory.rising_of_wf h)

/-- A write keeps the canonical form. -/
theorem Memory.wf_write {m : Memory} (h : m.wf = true) (a : Nat) (b : Byte) :
    (m.write a b).wf = true := by
  simp only [Memory.wf, Bool.and_eq_true, List.all_eq_true, decide_eq_true_eq] at h ⊢
  refine ⟨Memory.risingFrom_write b h.1 (Nat.zero_le a), fun c hc => ?_⟩
  rcases Memory.mem_write hc with ⟨rfl, hb⟩ | hc
  · exact hb
  · exact h.2 c hc

theorem Memory.within_write {m : Memory} {size a : Nat} (h : m.within size = true) (b : Byte)
    (ha : a < size) : (m.write a b).within size = true := by
  simp only [Memory.within, List.all_eq_true, decide_eq_true_eq] at h ⊢
  intro c hc
  rcases Memory.mem_write hc with ⟨rfl, -⟩ | hc
  · exact ha
  · exact h c hc

/-! Several bytes written -/

/-- `MemWrite` keeps the canonical form. -/
theorem Memory.wf_writeBytes {m : Memory} (h : m.wf = true) (a : Nat) (s : List Byte) :
    (m.writeBytes a s).wf = true := by
  induction s generalizing m a with
  | nil => exact h
  | cons b s ih => exact ih (Memory.wf_write h a b) (a + 1)

theorem Memory.within_writeBytes {m : Memory} {size : Nat} (h : m.within size = true) (a : Nat)
    (s : List Byte) (ha : a + s.length ≤ size) : (m.writeBytes a s).within size = true := by
  induction s generalizing m a with
  | nil => exact h
  | cons b s ih =>
    simp only [List.length_cons] at ha
    exact ih (Memory.within_write h b (by omega)) (a + 1) (by omega)

/-- `MemWrite` leaves every byte outside its range as it is. -/
theorem Memory.read_writeBytes_other (m : Memory) {a x : Nat} (s : List Byte)
    (h : ¬(a ≤ x ∧ x < a + s.length)) : (m.writeBytes a s).read x = m.read x := by
  induction s generalizing m a with
  | nil => rfl
  | cons b s ih =>
    simp only [List.length_cons] at h
    rw [Memory.writeBytes, ih _ (by omega), Memory.read_write_other m b (by omega)]

/-- `MemWrite` puts byte `i` of the string at `addr + i` (R63). -/
theorem Memory.read_writeBytes_same {m : Memory} (hm : m.wf = true) (a i : Nat) (s : List Byte)
    (h : i < s.length) : (m.writeBytes a s).read (a + i) = s.getD i 0 := by
  induction s generalizing m a i with
  | nil => simp at h
  | cons b s ih =>
    cases i with
    | zero =>
      rw [Memory.writeBytes, Memory.read_writeBytes_other _ s (by omega)]
      exact Memory.read_write_same hm a b
    | succ i =>
      simp only [List.length_cons] at h
      rw [Memory.writeBytes, show a + (i + 1) = a + 1 + i by omega,
        ih (Memory.wf_write hm a b) (a + 1) i (by omega)]
      rfl

/-- What was written is read back. -/
theorem Memory.readBytes_writeBytes {m : Memory} (hm : m.wf = true) (a : Nat) (s : List Byte) :
    (m.writeBytes a s).readBytes a s.length = s := by
  refine List.ext_getElem (Memory.readBytes_length _ _ _) fun i h1 h2 => ?_
  have h := Memory.read_writeBytes_same hm a i s h2
  simp only [List.getD_eq_getElem?_getD, List.getElem?_eq_getElem h2, Option.getD_some] at h
  simpa [Memory.readBytes] using h

end Sys2Proof.Machine
end

