-- ==== Sys2Proof/Laws/Sm3.lean ====
section
/-! SUPPORT. The sizes of what the SM3 functions produce. -/

namespace Sys2Proof.Machine

theorem be32Bytes_length (x : Word) : (be32Bytes x).length = 4 := rfl

theorem be64Bytes_length (x : BitVec 64) : (be64Bytes x).length = 8 := rfl

theorem ser_length (v : Words8) : (ser v).length = 32 := rfl

theorem wordsBytes_length (ws : List Word) : (wordsBytes ws).length = 4 * ws.length := by
  induction ws with
  | nil => rfl
  | cons w ws ih => simp only [wordsBytes, List.flatMap_cons, List.length_append, be32Bytes_length,
      List.length_cons] at ih ⊢; omega

theorem extendW_length (n : Nat) (ws : List Word) : (extendW n ws).length = ws.length + n := by
  induction n generalizing ws with
  | zero => rfl
  | succ n ih => rw [extendW, ih]; simp only [List.length_append, List.length_singleton]; omega

theorem blockWords_length (blk : List Byte) : (blockWords blk).length = 16 := by
  simp [blockWords]

theorem expandW_length (blk : List Byte) : (expandW blk).length = 68 := by
  rw [expandW, extendW_length, blockWords_length]

theorem expandWp_length (w : List Word) : (expandWp w).length = 64 := by simp [expandWp]

theorem keyPad_length (x : Byte) (k : List Byte) : (keyPad x k).length = 64 := by simp [keyPad]

theorem digest_length (m : List Byte) : (digest m).length = 32 := rfl

/-- A padded string has the length `PadLen` says (40_padder.md R101). -/
theorem pad_length (m : List Byte) : (pad m).length = padLen m.length := by
  simp only [pad, List.length_append, List.length_singleton, List.length_replicate,
    be64Bytes_length, padLen, padZeroBits]
  split <;> omega

theorem effectiveKey_length (key : List Byte) : (effectiveKey key).length ≤ 64 := by
  unfold effectiveKey
  split
  · rw [digest_length]; omega
  · omega

end Sys2Proof.Machine
end

