-- ==== Sys2Proof/Laws/State.lean ====
section
/-! SUPPORT. What each operation does to each field of the state: one lemma a field, by `rfl`. -/

namespace Sys2Proof.Machine

/-! The end of a command -/

@[simp] theorem State.discard_params (s : State) : (s.discard).params = s.params := rfl
@[simp] theorem State.discard_phase (s : State) : (s.discard).phase = s.phase := rfl
@[simp] theorem State.discard_done (s : State) : (s.discard).done = s.done := rfl
@[simp] theorem State.discard_err (s : State) : (s.discard).err = s.err := rfl
@[simp] theorem State.discard_ovr (s : State) : (s.discard).ovr = s.ovr := rfl
@[simp] theorem State.discard_errcode (s : State) : (s.discard).errcode = s.errcode := rfl
@[simp] theorem State.discard_ie (s : State) : (s.discard).ie = s.ie := rfl
@[simp] theorem State.discard_outLen (s : State) : (s.discard).outLen = s.outLen := rfl
@[simp] theorem State.discard_srcAddr (s : State) : (s.discard).srcAddr = s.srcAddr := rfl
@[simp] theorem State.discard_srcLen (s : State) : (s.discard).srcLen = s.srcLen := rfl
@[simp] theorem State.discard_keyAddr (s : State) : (s.discard).keyAddr = s.keyAddr := rfl
@[simp] theorem State.discard_keyLen (s : State) : (s.discard).keyLen = s.keyLen := rfl
@[simp] theorem State.discard_dstAddr (s : State) : (s.discard).dstAddr = s.dstAddr := rfl
@[simp] theorem State.discard_v (s : State) : (s.discard).v = s.v := rfl
@[simp] theorem State.discard_lat (s : State) : (s.discard).lat = Latched.free s.draws := rfl
@[simp] theorem State.discard_engine (s : State) : (s.discard).engine =
    Engine.free s.params s.draws := rfl
@[simp] theorem State.discard_mem (s : State) : (s.discard).mem = s.mem := rfl
@[simp] theorem State.discard_raceIn (s : State) : (s.discard).raceIn = false := rfl
@[simp] theorem State.discard_raceOut (s : State) : (s.discard).raceOut = [] := rfl
@[simp] theorem State.discard_draws (s : State) : (s.discard).draws = s.draws + 1 := rfl
@[simp] theorem State.discard_events (s : State) : (s.discard).events = s.events := rfl
@[simp] theorem State.discard_seen (s : State) : (s.discard).seen = s.seen := rfl

/-! A failure's report -/

@[simp] theorem State.raise_params (s : State) (c : ErrCause) : (s.raise c).params = s.params := rfl
@[simp] theorem State.raise_phase (s : State) (c : ErrCause) : (s.raise c).phase = .idle := rfl
@[simp] theorem State.raise_done (s : State) (c : ErrCause) : (s.raise c).done = s.done := rfl
@[simp] theorem State.raise_err (s : State) (c : ErrCause) : (s.raise c).err = true := rfl
@[simp] theorem State.raise_ovr (s : State) (c : ErrCause) : (s.raise c).ovr = s.ovr := rfl
@[simp] theorem State.raise_errcode (s : State) (c : ErrCause) : (s.raise c).errcode = c.code := rfl
@[simp] theorem State.raise_ie (s : State) (c : ErrCause) : (s.raise c).ie = s.ie := rfl
@[simp] theorem State.raise_outLen (s : State) (c : ErrCause) : (s.raise c).outLen = 0 := rfl
@[simp] theorem State.raise_srcAddr (s : State) (c : ErrCause) : (s.raise c).srcAddr =
    s.srcAddr := rfl
@[simp] theorem State.raise_srcLen (s : State) (c : ErrCause) : (s.raise c).srcLen = s.srcLen := rfl
@[simp] theorem State.raise_keyAddr (s : State) (c : ErrCause) : (s.raise c).keyAddr =
    s.keyAddr := rfl
@[simp] theorem State.raise_keyLen (s : State) (c : ErrCause) : (s.raise c).keyLen = s.keyLen := rfl
@[simp] theorem State.raise_dstAddr (s : State) (c : ErrCause) : (s.raise c).dstAddr =
    s.dstAddr := rfl
@[simp] theorem State.raise_v (s : State) (c : ErrCause) : (s.raise c).v = s.v := rfl
@[simp] theorem State.raise_lat (s : State) (c : ErrCause) : (s.raise c).lat = s.lat := rfl
@[simp] theorem State.raise_engine (s : State) (c : ErrCause) : (s.raise c).engine = s.engine := rfl
@[simp] theorem State.raise_mem (s : State) (c : ErrCause) : (s.raise c).mem = s.mem := rfl
@[simp] theorem State.raise_raceIn (s : State) (c : ErrCause) : (s.raise c).raceIn = s.raceIn := rfl
@[simp] theorem State.raise_raceOut (s : State) (c : ErrCause) : (s.raise c).raceOut =
    s.raceOut := rfl
@[simp] theorem State.raise_draws (s : State) (c : ErrCause) : (s.raise c).draws = s.draws := rfl
@[simp] theorem State.raise_events (s : State) (c : ErrCause) : (s.raise c).events = s.events := rfl
@[simp] theorem State.raise_seen (s : State) (c : ErrCause) : (s.raise c).seen = s.seen := rfl

/-! The failure of a running command -/

@[simp] theorem State.abort_params (s : State) (c : ErrCause) : (s.abort c).params = s.params := rfl
@[simp] theorem State.abort_phase (s : State) (c : ErrCause) : (s.abort c).phase = .idle := rfl
@[simp] theorem State.abort_done (s : State) (c : ErrCause) : (s.abort c).done = s.done := rfl
@[simp] theorem State.abort_err (s : State) (c : ErrCause) : (s.abort c).err = true := rfl
@[simp] theorem State.abort_ovr (s : State) (c : ErrCause) : (s.abort c).ovr = s.ovr := rfl
@[simp] theorem State.abort_errcode (s : State) (c : ErrCause) : (s.abort c).errcode = c.code := rfl
@[simp] theorem State.abort_ie (s : State) (c : ErrCause) : (s.abort c).ie = s.ie := rfl
@[simp] theorem State.abort_outLen (s : State) (c : ErrCause) : (s.abort c).outLen = 0 := rfl
@[simp] theorem State.abort_srcAddr (s : State) (c : ErrCause) : (s.abort c).srcAddr =
    s.srcAddr := rfl
@[simp] theorem State.abort_srcLen (s : State) (c : ErrCause) : (s.abort c).srcLen = s.srcLen := rfl
@[simp] theorem State.abort_keyAddr (s : State) (c : ErrCause) : (s.abort c).keyAddr =
    s.keyAddr := rfl
@[simp] theorem State.abort_keyLen (s : State) (c : ErrCause) : (s.abort c).keyLen = s.keyLen := rfl
@[simp] theorem State.abort_dstAddr (s : State) (c : ErrCause) : (s.abort c).dstAddr =
    s.dstAddr := rfl
@[simp] theorem State.abort_v (s : State) (c : ErrCause) : (s.abort c).v = s.v := rfl
@[simp] theorem State.abort_lat (s : State) (c : ErrCause) : (s.abort c).lat =
    Latched.free s.draws := rfl
@[simp] theorem State.abort_engine (s : State) (c : ErrCause) : (s.abort c).engine =
    Engine.free s.params s.draws := rfl
@[simp] theorem State.abort_mem (s : State) (c : ErrCause) : (s.abort c).mem = s.mem := rfl
@[simp] theorem State.abort_raceIn (s : State) (c : ErrCause) : (s.abort c).raceIn = false := rfl
@[simp] theorem State.abort_raceOut (s : State) (c : ErrCause) : (s.abort c).raceOut = [] := rfl
@[simp] theorem State.abort_draws (s : State) (c : ErrCause) : (s.abort c).draws =
    s.draws + 1 := rfl
@[simp] theorem State.abort_events (s : State) (c : ErrCause) : (s.abort c).events = s.events := rfl
@[simp] theorem State.abort_seen (s : State) (c : ErrCause) : (s.abort c).seen = s.seen := rfl

/-! Successful completion -/

@[simp] theorem State.complete_params (s : State) (n : Nat) : (s.complete n).params =
    s.params := rfl
@[simp] theorem State.complete_phase (s : State) (n : Nat) : (s.complete n).phase = .idle := rfl
@[simp] theorem State.complete_done (s : State) (n : Nat) : (s.complete n).done = true := rfl
@[simp] theorem State.complete_err (s : State) (n : Nat) : (s.complete n).err = s.err := rfl
@[simp] theorem State.complete_ovr (s : State) (n : Nat) : (s.complete n).ovr = s.ovr := rfl
@[simp] theorem State.complete_errcode (s : State) (n : Nat) : (s.complete n).errcode =
    s.errcode := rfl
@[simp] theorem State.complete_ie (s : State) (n : Nat) : (s.complete n).ie = s.ie := rfl
@[simp] theorem State.complete_outLen (s : State) (n : Nat) : (s.complete n).outLen =
    outLenValue n s.draws := rfl
@[simp] theorem State.complete_srcAddr (s : State) (n : Nat) : (s.complete n).srcAddr =
    s.srcAddr := rfl
@[simp] theorem State.complete_srcLen (s : State) (n : Nat) : (s.complete n).srcLen =
    s.srcLen := rfl
@[simp] theorem State.complete_keyAddr (s : State) (n : Nat) : (s.complete n).keyAddr =
    s.keyAddr := rfl
@[simp] theorem State.complete_keyLen (s : State) (n : Nat) : (s.complete n).keyLen =
    s.keyLen := rfl
@[simp] theorem State.complete_dstAddr (s : State) (n : Nat) : (s.complete n).dstAddr =
    s.dstAddr := rfl
@[simp] theorem State.complete_v (s : State) (n : Nat) : (s.complete n).v = s.v := rfl
@[simp] theorem State.complete_lat (s : State) (n : Nat) : (s.complete n).lat =
    Latched.free s.draws := rfl
@[simp] theorem State.complete_engine (s : State) (n : Nat) : (s.complete n).engine =
    Engine.free s.params s.draws := rfl
@[simp] theorem State.complete_mem (s : State) (n : Nat) : (s.complete n).mem = s.mem := rfl
@[simp] theorem State.complete_raceIn (s : State) (n : Nat) : (s.complete n).raceIn = false := rfl
@[simp] theorem State.complete_raceOut (s : State) (n : Nat) : (s.complete n).raceOut = [] := rfl
@[simp] theorem State.complete_draws (s : State) (n : Nat) : (s.complete n).draws =
    s.draws + 1 := rfl
@[simp] theorem State.complete_events (s : State) (n : Nat) : (s.complete n).events =
    s.events := rfl
@[simp] theorem State.complete_seen (s : State) (n : Nat) : (s.complete n).seen = s.seen := rfl

/-! The chaining words of a result -/

@[simp] theorem State.commitV_params (s : State) (v : Words8) : (s.commitV v).params =
    s.params := rfl
@[simp] theorem State.commitV_phase (s : State) (v : Words8) : (s.commitV v).phase = s.phase := rfl
@[simp] theorem State.commitV_done (s : State) (v : Words8) : (s.commitV v).done = s.done := rfl
@[simp] theorem State.commitV_err (s : State) (v : Words8) : (s.commitV v).err = s.err := rfl
@[simp] theorem State.commitV_ovr (s : State) (v : Words8) : (s.commitV v).ovr = s.ovr := rfl
@[simp] theorem State.commitV_errcode (s : State) (v : Words8) : (s.commitV v).errcode =
    s.errcode := rfl
@[simp] theorem State.commitV_ie (s : State) (v : Words8) : (s.commitV v).ie = s.ie := rfl
@[simp] theorem State.commitV_outLen (s : State) (v : Words8) : (s.commitV v).outLen =
    s.outLen := rfl
@[simp] theorem State.commitV_srcAddr (s : State) (v : Words8) : (s.commitV v).srcAddr =
    s.srcAddr := rfl
@[simp] theorem State.commitV_srcLen (s : State) (v : Words8) : (s.commitV v).srcLen =
    s.srcLen := rfl
@[simp] theorem State.commitV_keyAddr (s : State) (v : Words8) : (s.commitV v).keyAddr =
    s.keyAddr := rfl
@[simp] theorem State.commitV_keyLen (s : State) (v : Words8) : (s.commitV v).keyLen =
    s.keyLen := rfl
@[simp] theorem State.commitV_dstAddr (s : State) (v : Words8) : (s.commitV v).dstAddr =
    s.dstAddr := rfl
@[simp] theorem State.commitV_v (s : State) (v : Words8) : (s.commitV v).v =
    if s.raceIn then racedWords s.draws else v := rfl
@[simp] theorem State.commitV_lat (s : State) (v : Words8) : (s.commitV v).lat = s.lat := rfl
@[simp] theorem State.commitV_engine (s : State) (v : Words8) : (s.commitV v).engine =
    s.engine := rfl
@[simp] theorem State.commitV_mem (s : State) (v : Words8) : (s.commitV v).mem = s.mem := rfl
@[simp] theorem State.commitV_raceIn (s : State) (v : Words8) : (s.commitV v).raceIn =
    s.raceIn := rfl
@[simp] theorem State.commitV_raceOut (s : State) (v : Words8) : (s.commitV v).raceOut =
    s.raceOut := rfl
@[simp] theorem State.commitV_draws (s : State) (v : Words8) : (s.commitV v).draws = s.draws := rfl
@[simp] theorem State.commitV_events (s : State) (v : Words8) : (s.commitV v).events =
    s.events := rfl
@[simp] theorem State.commitV_seen (s : State) (v : Words8) : (s.commitV v).seen = s.seen := rfl

/-! The output bytes of a result -/

@[simp] theorem State.commitOut_params (s : State) (out : List Byte) : (s.commitOut out).params =
    s.params := rfl
@[simp] theorem State.commitOut_phase (s : State) (out : List Byte) : (s.commitOut out).phase =
    s.phase := rfl
@[simp] theorem State.commitOut_done (s : State) (out : List Byte) : (s.commitOut out).done =
    s.done := rfl
@[simp] theorem State.commitOut_err (s : State) (out : List Byte) : (s.commitOut out).err =
    s.err := rfl
@[simp] theorem State.commitOut_ovr (s : State) (out : List Byte) : (s.commitOut out).ovr =
    s.ovr := rfl
@[simp] theorem State.commitOut_errcode (s : State) (out : List Byte) : (s.commitOut out).errcode =
    s.errcode := rfl
@[simp] theorem State.commitOut_ie (s : State) (out : List Byte) : (s.commitOut out).ie =
    s.ie := rfl
@[simp] theorem State.commitOut_outLen (s : State) (out : List Byte) : (s.commitOut out).outLen =
    s.outLen := rfl
@[simp] theorem State.commitOut_srcAddr (s : State) (out : List Byte) : (s.commitOut out).srcAddr =
    s.srcAddr := rfl
@[simp] theorem State.commitOut_srcLen (s : State) (out : List Byte) : (s.commitOut out).srcLen =
    s.srcLen := rfl
@[simp] theorem State.commitOut_keyAddr (s : State) (out : List Byte) : (s.commitOut out).keyAddr =
    s.keyAddr := rfl
@[simp] theorem State.commitOut_keyLen (s : State) (out : List Byte) : (s.commitOut out).keyLen =
    s.keyLen := rfl
@[simp] theorem State.commitOut_dstAddr (s : State) (out : List Byte) : (s.commitOut out).dstAddr =
    s.dstAddr := rfl
@[simp] theorem State.commitOut_v (s : State) (out : List Byte) : (s.commitOut out).v = s.v := rfl
@[simp] theorem State.commitOut_lat (s : State) (out : List Byte) : (s.commitOut out).lat =
    s.lat := rfl
@[simp] theorem State.commitOut_engine (s : State) (out : List Byte) : (s.commitOut out).engine =
    s.engine := rfl
@[simp] theorem State.commitOut_mem (s : State) (out : List Byte) : (s.commitOut out).mem =
    s.mem.writeBytes s.lat.dst.toNat (s.settledBytes s.lat.dst.toNat 0 out) := rfl
@[simp] theorem State.commitOut_raceIn (s : State) (out : List Byte) : (s.commitOut out).raceIn =
    s.raceIn := rfl
@[simp] theorem State.commitOut_raceOut (s : State) (out : List Byte) : (s.commitOut out).raceOut =
    s.raceOut := rfl
@[simp] theorem State.commitOut_draws (s : State) (out : List Byte) : (s.commitOut out).draws =
    s.draws := rfl
@[simp] theorem State.commitOut_events (s : State) (out : List Byte) : (s.commitOut out).events =
    s.events := rfl
@[simp] theorem State.commitOut_seen (s : State) (out : List Byte) : (s.commitOut out).seen =
    s.seen := rfl

/-! What acceptance clears -/

@[simp] theorem State.clearReport_params (s : State) : (s.clearReport).params = s.params := rfl
@[simp] theorem State.clearReport_phase (s : State) : (s.clearReport).phase = s.phase := rfl
@[simp] theorem State.clearReport_done (s : State) : (s.clearReport).done = false := rfl
@[simp] theorem State.clearReport_err (s : State) : (s.clearReport).err = false := rfl
@[simp] theorem State.clearReport_ovr (s : State) : (s.clearReport).ovr = s.ovr := rfl
@[simp] theorem State.clearReport_errcode (s : State) : (s.clearReport).errcode = 0 := rfl
@[simp] theorem State.clearReport_ie (s : State) : (s.clearReport).ie = s.ie := rfl
@[simp] theorem State.clearReport_outLen (s : State) : (s.clearReport).outLen = s.outLen := rfl
@[simp] theorem State.clearReport_srcAddr (s : State) : (s.clearReport).srcAddr = s.srcAddr := rfl
@[simp] theorem State.clearReport_srcLen (s : State) : (s.clearReport).srcLen = s.srcLen := rfl
@[simp] theorem State.clearReport_keyAddr (s : State) : (s.clearReport).keyAddr = s.keyAddr := rfl
@[simp] theorem State.clearReport_keyLen (s : State) : (s.clearReport).keyLen = s.keyLen := rfl
@[simp] theorem State.clearReport_dstAddr (s : State) : (s.clearReport).dstAddr = s.dstAddr := rfl
@[simp] theorem State.clearReport_v (s : State) : (s.clearReport).v = s.v := rfl
@[simp] theorem State.clearReport_lat (s : State) : (s.clearReport).lat = s.lat := rfl
@[simp] theorem State.clearReport_engine (s : State) : (s.clearReport).engine = s.engine := rfl
@[simp] theorem State.clearReport_mem (s : State) : (s.clearReport).mem = s.mem := rfl
@[simp] theorem State.clearReport_raceIn (s : State) : (s.clearReport).raceIn = s.raceIn := rfl
@[simp] theorem State.clearReport_raceOut (s : State) : (s.clearReport).raceOut = s.raceOut := rfl
@[simp] theorem State.clearReport_draws (s : State) : (s.clearReport).draws = s.draws := rfl
@[simp] theorem State.clearReport_events (s : State) : (s.clearReport).events = s.events := rfl
@[simp] theorem State.clearReport_seen (s : State) : (s.clearReport).seen = s.seen := rfl

/-! A host write to `STATUS` -/

@[simp] theorem State.writeStatus_params (s : State) (w : Word) : (s.writeStatus w).params =
    s.params := rfl
@[simp] theorem State.writeStatus_phase (s : State) (w : Word) : (s.writeStatus w).phase =
    s.phase := rfl
@[simp] theorem State.writeStatus_done (s : State) (w : Word) : (s.writeStatus w).done =
    (s.done && !w.getLsbD 1) := rfl
@[simp] theorem State.writeStatus_err (s : State) (w : Word) : (s.writeStatus w).err =
    (s.err && !w.getLsbD 2) := rfl
@[simp] theorem State.writeStatus_ovr (s : State) (w : Word) : (s.writeStatus w).ovr =
    (s.ovr && !w.getLsbD 3) := rfl
@[simp] theorem State.writeStatus_errcode (s : State) (w : Word) : (s.writeStatus w).errcode =
    (if w.getLsbD 2 then 0 else s.errcode) := rfl
@[simp] theorem State.writeStatus_ie (s : State) (w : Word) : (s.writeStatus w).ie = s.ie := rfl
@[simp] theorem State.writeStatus_outLen (s : State) (w : Word) : (s.writeStatus w).outLen =
    s.outLen := rfl
@[simp] theorem State.writeStatus_srcAddr (s : State) (w : Word) : (s.writeStatus w).srcAddr =
    s.srcAddr := rfl
@[simp] theorem State.writeStatus_srcLen (s : State) (w : Word) : (s.writeStatus w).srcLen =
    s.srcLen := rfl
@[simp] theorem State.writeStatus_keyAddr (s : State) (w : Word) : (s.writeStatus w).keyAddr =
    s.keyAddr := rfl
@[simp] theorem State.writeStatus_keyLen (s : State) (w : Word) : (s.writeStatus w).keyLen =
    s.keyLen := rfl
@[simp] theorem State.writeStatus_dstAddr (s : State) (w : Word) : (s.writeStatus w).dstAddr =
    s.dstAddr := rfl
@[simp] theorem State.writeStatus_v (s : State) (w : Word) : (s.writeStatus w).v = s.v := rfl
@[simp] theorem State.writeStatus_lat (s : State) (w : Word) : (s.writeStatus w).lat = s.lat := rfl
@[simp] theorem State.writeStatus_engine (s : State) (w : Word) : (s.writeStatus w).engine =
    s.engine := rfl
@[simp] theorem State.writeStatus_mem (s : State) (w : Word) : (s.writeStatus w).mem = s.mem := rfl
@[simp] theorem State.writeStatus_raceIn (s : State) (w : Word) : (s.writeStatus w).raceIn =
    s.raceIn := rfl
@[simp] theorem State.writeStatus_raceOut (s : State) (w : Word) : (s.writeStatus w).raceOut =
    s.raceOut := rfl
@[simp] theorem State.writeStatus_draws (s : State) (w : Word) : (s.writeStatus w).draws =
    s.draws := rfl
@[simp] theorem State.writeStatus_events (s : State) (w : Word) : (s.writeStatus w).events =
    s.events := rfl
@[simp] theorem State.writeStatus_seen (s : State) (w : Word) : (s.writeStatus w).seen =
    s.seen := rfl

/-! A value read by the host -/

@[simp] theorem State.observe_params (s : State) (o : Observation) : (s.observe o).params =
    s.params := rfl
@[simp] theorem State.observe_phase (s : State) (o : Observation) : (s.observe o).phase =
    s.phase := rfl
@[simp] theorem State.observe_done (s : State) (o : Observation) : (s.observe o).done =
    s.done := rfl
@[simp] theorem State.observe_err (s : State) (o : Observation) : (s.observe o).err = s.err := rfl
@[simp] theorem State.observe_ovr (s : State) (o : Observation) : (s.observe o).ovr = s.ovr := rfl
@[simp] theorem State.observe_errcode (s : State) (o : Observation) : (s.observe o).errcode =
    s.errcode := rfl
@[simp] theorem State.observe_ie (s : State) (o : Observation) : (s.observe o).ie = s.ie := rfl
@[simp] theorem State.observe_outLen (s : State) (o : Observation) : (s.observe o).outLen =
    s.outLen := rfl
@[simp] theorem State.observe_srcAddr (s : State) (o : Observation) : (s.observe o).srcAddr =
    s.srcAddr := rfl
@[simp] theorem State.observe_srcLen (s : State) (o : Observation) : (s.observe o).srcLen =
    s.srcLen := rfl
@[simp] theorem State.observe_keyAddr (s : State) (o : Observation) : (s.observe o).keyAddr =
    s.keyAddr := rfl
@[simp] theorem State.observe_keyLen (s : State) (o : Observation) : (s.observe o).keyLen =
    s.keyLen := rfl
@[simp] theorem State.observe_dstAddr (s : State) (o : Observation) : (s.observe o).dstAddr =
    s.dstAddr := rfl
@[simp] theorem State.observe_v (s : State) (o : Observation) : (s.observe o).v = s.v := rfl
@[simp] theorem State.observe_lat (s : State) (o : Observation) : (s.observe o).lat = s.lat := rfl
@[simp] theorem State.observe_engine (s : State) (o : Observation) : (s.observe o).engine =
    s.engine := rfl
@[simp] theorem State.observe_mem (s : State) (o : Observation) : (s.observe o).mem = s.mem := rfl
@[simp] theorem State.observe_raceIn (s : State) (o : Observation) : (s.observe o).raceIn =
    s.raceIn := rfl
@[simp] theorem State.observe_raceOut (s : State) (o : Observation) : (s.observe o).raceOut =
    s.raceOut := rfl
@[simp] theorem State.observe_draws (s : State) (o : Observation) : (s.observe o).draws =
    s.draws + 1 := rfl
@[simp] theorem State.observe_events (s : State) (o : Observation) : (s.observe o).events =
    s.events := rfl
@[simp] theorem State.observe_seen (s : State) (o : Observation) : (s.observe o).seen =
    o :: s.seen := rfl

/-! Reset -/

@[simp] theorem State.applyReset_params (s : State) : (s.applyReset).params = s.params := rfl
@[simp] theorem State.applyReset_phase (s : State) : (s.applyReset).phase = .idle := rfl
@[simp] theorem State.applyReset_done (s : State) : (s.applyReset).done = false := rfl
@[simp] theorem State.applyReset_err (s : State) : (s.applyReset).err = false := rfl
@[simp] theorem State.applyReset_ovr (s : State) : (s.applyReset).ovr = false := rfl
@[simp] theorem State.applyReset_errcode (s : State) : (s.applyReset).errcode = 0 := rfl
@[simp] theorem State.applyReset_ie (s : State) : (s.applyReset).ie = false := rfl
@[simp] theorem State.applyReset_outLen (s : State) : (s.applyReset).outLen = 0 := rfl
@[simp] theorem State.applyReset_srcAddr (s : State) : (s.applyReset).srcAddr = 0 := rfl
@[simp] theorem State.applyReset_srcLen (s : State) : (s.applyReset).srcLen = 0 := rfl
@[simp] theorem State.applyReset_keyAddr (s : State) : (s.applyReset).keyAddr = 0 := rfl
@[simp] theorem State.applyReset_keyLen (s : State) : (s.applyReset).keyLen = 0 := rfl
@[simp] theorem State.applyReset_dstAddr (s : State) : (s.applyReset).dstAddr = 0 := rfl
@[simp] theorem State.applyReset_v (s : State) : (s.applyReset).v = iv := rfl
@[simp] theorem State.applyReset_lat (s : State) : (s.applyReset).lat = Latched.free s.draws := rfl
@[simp] theorem State.applyReset_engine (s : State) : (s.applyReset).engine =
    Engine.free s.params s.draws := rfl
@[simp] theorem State.applyReset_mem (s : State) : (s.applyReset).mem = s.memAfterReset := rfl
@[simp] theorem State.applyReset_raceIn (s : State) : (s.applyReset).raceIn = false := rfl
@[simp] theorem State.applyReset_raceOut (s : State) : (s.applyReset).raceOut = [] := rfl
@[simp] theorem State.applyReset_draws (s : State) : (s.applyReset).draws = s.draws + 1 := rfl
@[simp] theorem State.applyReset_events (s : State) : (s.applyReset).events = s.events := rfl
@[simp] theorem State.applyReset_seen (s : State) : (s.applyReset).seen = s.seen := rfl

end Sys2Proof.Machine
end

