-- ==== Sys2Proof/Laws/Ops.lean ====
section
/-! SUPPORT. What each shared operation can do, said once: the checks of a command, the committing of
its results, acceptance, reset. -/

namespace Sys2Proof.Machine

/-! The status bits -/

theorem State.busy_eq_true {s : State} : s.busy = true ↔ s.phase = .run := by
  simp [State.busy]

theorem State.busy_eq_false {s : State} : s.busy = false ↔ s.phase = .idle := by
  cases h : s.phase <;> simp [State.busy, h]

/-! The checks -/

/-- A command passes its checks exactly when every range it lists is in range and the padded buffer
holds what it needs. -/
theorem commandError_eq_none {p : Params} {i : Instr} {o : Latched} :
    commandError p i o = none ↔
      (∀ r ∈ checkedRanges i o, r.1.toNat + r.2 ≤ p.memBytes) ∧
        bufferHolds p (bufferNeed i o) = true := by
  simp only [commandError]
  split
  · next h => split <;> simp_all [inRange]
  · next h =>
    simp only [reduceCtorEq, false_iff, not_and]
    intro h' _
    exact h (List.all_eq_true.mpr fun r hr => decide_eq_true (h' r hr))

/-- A command that fails fails with RANGE when a range is out, and with ALLOC otherwise (R206). -/
theorem commandError_eq_some {p : Params} {i : Instr} {o : Latched} {c : ErrCause}
    (h : commandError p i o = some c) :
    (c = .range ∧ ∃ r ∈ checkedRanges i o, p.memBytes < r.1.toNat + r.2) ∨
      (c = .alloc ∧ (∀ r ∈ checkedRanges i o, r.1.toNat + r.2 ≤ p.memBytes) ∧
        bufferHolds p (bufferNeed i o) = false) := by
  simp only [commandError] at h
  split at h
  · next hr =>
    split at h
    · cases h
    · next hb =>
      cases h
      refine .inr ⟨rfl, fun r hr' => ?_, by simpa using hb⟩
      simpa [inRange] using List.all_eq_true.mp hr r hr'
  · next hr =>
    cases h
    refine .inl ⟨rfl, ?_⟩
    simpa [inRange] using hr

/-- A checked command is aborted, or its checks pass and it acts. -/
theorem State.checked_cases (s : State) (i : Instr) (act : State → State) :
    (∃ c, commandError s.params i s.lat = some c ∧ s.checked i act = s.abort c) ∨
      (commandError s.params i s.lat = none ∧ s.checked i act = act s) := by
  simp only [State.checked]
  split
  · next c h => exact .inl ⟨c, h, rfl⟩
  · next h => exact .inr ⟨h, rfl⟩

/-! The results -/

theorem State.settledBytes_length (s : State) (addr k : Nat) (out : List Byte) :
    (s.settledBytes addr k out).length = out.length := by
  induction out generalizing addr k with
  | nil => rfl
  | cons b rest ih => simp [State.settledBytes, ih]

/-- What stands after a command depends on the memory, the hazards and the draw, on nothing else. -/
theorem State.settledBytes_congr {s s' : State} (hm : s'.mem = s.mem) (hi : s'.raceIn = s.raceIn)
    (ho : s'.raceOut = s.raceOut) (hd : s'.draws = s.draws) (addr k : Nat) (out : List Byte) :
    s'.settledBytes addr k out = s.settledBytes addr k out := by
  induction out generalizing addr k with
  | nil => rfl
  | cons b rest ih =>
    simp only [State.settledBytes, State.settledByte, State.engineByte, hm, hi, ho, hd, ih]

@[simp] theorem State.settledBytes_withEngine (s : State) (e : Engine) (addr k : Nat)
    (out : List Byte) :
    State.settledBytes { s with engine := e } addr k out = s.settledBytes addr k out :=
  State.settledBytes_congr (by simp) (by simp) (by simp) (by simp) addr k out

@[simp] theorem State.settledBytes_commitV (s : State) (v : Words8) (addr k : Nat)
    (out : List Byte) : (s.commitV v).settledBytes addr k out = s.settledBytes addr k out :=
  State.settledBytes_congr (by simp) (by simp) (by simp) (by simp) addr k out

/-- Without a race the engine's bytes stand. -/
theorem State.settledBytes_of_no_race {s : State} (hi : s.raceIn = false) (ho : s.raceOut = [])
    (addr k : Nat) (out : List Byte) : s.settledBytes addr k out = out := by
  induction out generalizing addr k with
  | nil => rfl
  | cons b rest ih => simp [State.settledBytes, State.settledByte, State.engineByte, hi, ho, ih]

/-- Byte `i` of the destination range after a command. -/
theorem State.settledBytes_getD (s : State) (addr k i : Nat) (out : List Byte)
    (h : i < out.length) :
    (s.settledBytes addr k out).getD i 0 = s.settledByte (addr + i) (k + i) (out.getD i 0) := by
  induction out generalizing addr k i with
  | nil => simp at h
  | cons b rest ih =>
    cases i with
    | zero => rfl
    | succ i =>
      simp only [List.length_cons] at h
      have := ih (addr + 1) (k + 1) i (by omega)
      simpa [State.settledBytes, show addr + (i + 1) = addr + 1 + i by omega,
        show k + (i + 1) = k + 1 + i by omega] using this

theorem State.commitOut_of_no_race {s : State} (hi : s.raceIn = false) (ho : s.raceOut = [])
    (out : List Byte) :
    s.commitOut out = { s with mem := s.mem.writeBytes s.lat.dst.toNat out } := by
  simp [State.commitOut, State.settledBytes_of_no_race hi ho]

theorem State.commitV_of_no_race {s : State} (hi : s.raceIn = false) (v : Words8) :
    s.commitV v = { s with v := v } := by
  simp [State.commitV, hi]

/-! Acceptance -/

/-- The opcode of a legal word, decoded again with 0 above it, is the same command. -/
theorem decode_opField {c : Word} {i : Instr} (h : decode c = .ok i) :
    decode ((opField c).setWidth 32) = .ok i := by
  have hr : rsvField ((opField c).setWidth 32) = 0 := by
    apply BitVec.eq_of_getLsbD_eq
    intro k hk
    simp [rsvField, opField, BitVec.getLsbD_extractLsb']
  have ho : opField ((opField c).setWidth 32) = opField c := by
    apply BitVec.eq_of_getLsbD_eq
    intro k hk
    simp only [opField, BitVec.getLsbD_extractLsb', BitVec.getLsbD_setWidth, hk, decide_true,
      Bool.true_and, Nat.zero_add]
    simp [show k < 32 by omega]
  simp only [decode] at h ⊢
  split at h
  · cases h
  · rw [if_neg (by simp [hr]), ho]; exact h

/-- Acceptance either rejects the word with ILLEGAL_CMD or starts the command it names. -/
theorem State.accept_cases (s : State) (c : Word) :
    (∃ e, decode c = .error e ∧ s.accept c = s.clearReport.raise .illegalCmd) ∨
      (∃ i, decode c = .ok i ∧
        s.accept c = { s.clearReport with
          lat := s.latchOperands c, phase := .run, raceIn := false, raceOut := [] } ∧
        (s.accept c).latchedInstr = some i) := by
  cases h : decode c with
  | error e => exact .inl ⟨e, rfl, by simp [State.accept, h]⟩
  | ok i =>
    refine .inr ⟨i, rfl, by simp [State.accept, h], ?_⟩
    simp only [State.accept, h, State.latchedInstr, State.latchOperands]
    rw [decode_opField h]

/-! Reset -/

theorem abandonedBytes_length (d n : Nat) : (abandonedBytes d n).length = n := by
  simp [abandonedBytes]

/-- Reset leaves the memory as it is, or writes the destination range of a command that was running
and passed its checks (R231, R232). -/
theorem State.memAfterReset_cases (s : State) :
    s.memAfterReset = s.mem ∨
      ∃ i, s.phase = .run ∧ s.latchedInstr = some i ∧ commandError s.params i s.lat = none ∧
        s.memAfterReset = s.mem.writeBytes s.lat.dst.toNat
          (abandonedBytes s.draws (outLength i s.lat)) := by
  unfold State.memAfterReset
  split
  · next i hp hi =>
    split
    · next hc => exact .inr ⟨i, hp, hi, hc, rfl⟩
    · exact .inl rfl
  · exact .inl rfl

/-! The internal state that a command leaves -/

theorem freeBytes_length (d k n : Nat) : (freeBytes d k n).length = n := by simp [freeBytes]

theorem freeWords_length (d k n : Nat) : (freeWords d k n).length = n := by simp [freeWords]

theorem bufferHolds_freeBufferLength (p : Params) (d : Nat) :
    bufferHolds p (freeBufferLength p d) = true := by
  unfold bufferHolds freeBufferLength
  cases p.padBuf with
  | none => rfl
  | some c =>
    have := Nat.mod_lt (Config.idleNat d 0) (show 0 < c + 1 by omega)
    simp only [decide_eq_true_eq]
    omega

end Sys2Proof.Machine
end

