-- ==== Sys2Proof/Laws/PerInstr.lean ====
section
/-! SUPPORT. A law of every command as syntax: its command word is legal. -/

namespace Sys2Proof.Laws.EncodesLegal

/-- The command word of `i` passes the check of legal command words, its reserved bits are 0, and the
decoder reads `i` from it (30_encoding.md R81, R84). -/
def Statement (i : Instr) : Prop :=
  commandWordWf (encode i) = true ∧ rsvField (encode i) = 0 ∧
    decodeOpcode (opField (encode i)) = some i

theorem pad : Statement .pad := by unfold Statement; decide
theorem expand : Statement .expand := by unfold Statement; decide
theorem init : Statement .init := by unfold Statement; decide
theorem compress : Statement .compress := by unfold Statement; decide
theorem digest : Statement .digest := by unfold Statement; decide
theorem hmac : Statement .hmac := by unfold Statement; decide

end Sys2Proof.Laws.EncodesLegal
end

