-- ==== Sys2Proof/Laws/Step.lean ====
section
/-! SUPPORT. What one step can do, said once: the dispatch to a checked body, the turn, the host's
operations. -/

namespace Sys2Proof.Machine

/-- What each command does when its checks pass. -/
def bodyOf (i : Instr) : State → State :=
  match i with
  | .pad => padBody
  | .expand => expandBody
  | .init => initBody
  | .compress => compressBody
  | .digest => digestBody
  | .hmac => hmacBody

/-- Every command is its body behind its checks, and always answers a next state. -/
theorem exec_eq (i : Instr) (s : State) : exec i s = .next (s.checked i (bodyOf i)) := by
  cases i <;> rfl

/-- What a body leaves alone, and its report: it completes with DONE. -/
theorem bodyOf_fields (i : Instr) (s : State) :
    (bodyOf i s).params = s.params ∧ (bodyOf i s).phase = .idle ∧ (bodyOf i s).done = true ∧
      (bodyOf i s).err = s.err ∧ (bodyOf i s).ovr = s.ovr ∧ (bodyOf i s).errcode = s.errcode ∧
      (bodyOf i s).ie = s.ie ∧ (bodyOf i s).outLen = outLenValue (outLength i s.lat) s.draws ∧
      (bodyOf i s).srcAddr = s.srcAddr ∧ (bodyOf i s).srcLen = s.srcLen ∧
      (bodyOf i s).keyAddr = s.keyAddr ∧ (bodyOf i s).keyLen = s.keyLen ∧
      (bodyOf i s).dstAddr = s.dstAddr ∧ (bodyOf i s).lat = Latched.free s.draws ∧
      (bodyOf i s).engine = Engine.free s.params s.draws ∧ (bodyOf i s).raceIn = false ∧
      (bodyOf i s).raceOut = [] ∧ (bodyOf i s).draws = s.draws + 1 ∧
      (bodyOf i s).events = s.events ∧ (bodyOf i s).seen = s.seen := by
  cases i <;> simp [bodyOf, padBody, expandBody, initBody, compressBody, digestBody, hmacBody]

/-- A command that succeeds writes as many bytes as its rule says, from `dst` up, and no others. -/
theorem bodyOf_mem (i : Instr) (s : State) :
    ∃ out, out.length = outLength i s.lat ∧
      (bodyOf i s).mem =
        s.mem.writeBytes s.lat.dst.toNat (s.settledBytes s.lat.dst.toNat 0 out) := by
  cases i with
  | pad =>
    refine ⟨pad (s.mem.readBytes s.lat.src.toNat s.lat.slen.toNat), ?_, ?_⟩
    · rw [pad_length, Memory.readBytes_length, outLength]
    · simp only [bodyOf, padBody, State.complete_mem, State.commitOut_mem, Engine.fillPad,
        State.settledBytes_withEngine]
  | expand =>
    refine ⟨wordsBytes (expandW (s.mem.readBytes s.lat.src.toNat 64)) ++
      wordsBytes (expandWp (expandW (s.mem.readBytes s.lat.src.toNat 64))), ?_, ?_⟩
    · simp only [List.length_append, wordsBytes_length, expandW_length, expandWp_length, outLength]
    · simp only [bodyOf, expandBody, State.complete_mem, State.commitOut_mem,
        Engine.fillExpansion, expand, State.settledBytes_withEngine]
  | init => exact ⟨[], rfl, rfl⟩
  | compress =>
    refine ⟨[], rfl, ?_⟩
    simp only [bodyOf, compressBody, State.complete_mem, State.commitV_mem]
    rfl
  | digest =>
    refine ⟨ser (s.engine.digest (s.mem.readBytes s.lat.src.toNat s.lat.slen.toNat)).1, ?_, ?_⟩
    · rw [ser_length, outLength]
    · simp only [bodyOf, digestBody, State.complete_mem, State.commitOut_mem, State.commitV_mem,
        State.commitV_lat, State.settledBytes_commitV, State.settledBytes_withEngine]
  | hmac =>
    refine ⟨ser (s.engine.hmac (s.mem.readBytes s.lat.key.toNat s.lat.klen.toNat)
      (s.mem.readBytes s.lat.src.toNat s.lat.slen.toNat)).1, ?_, ?_⟩
    · rw [ser_length, outLength]
    · simp only [bodyOf, hmacBody, State.complete_mem, State.commitOut_mem, State.commitV_mem,
        State.commitV_lat, State.settledBytes_commitV, State.settledBytes_withEngine]

/-- PAD and EXPAND leave the chaining words alone (R105, R122). -/
theorem bodyOf_v {i : Instr} (h : i = .pad ∨ i = .expand) (s : State) :
    (bodyOf i s).v = s.v := by
  rcases h with rfl | rfl
  · simp [bodyOf, padBody]
  · simp [bodyOf, expandBody]

/-- The turn goes to nobody, to the host with the first operation, to reset, or, while a command
runs, to the engine. -/
theorem State.nextTurn_cases (s : State) :
    (s.busy = false ∧ s.events = [] ∧ s.nextTurn = (.nobody, s)) ∨
      (∃ rest, s.busy = false ∧ s.events = .engine :: rest ∧
        s.nextTurn = (.nobody, { s with events := rest })) ∨
      (∃ rest, s.events = .reset :: rest ∧ s.nextTurn = (.reset, { s with events := rest })) ∨
      (∃ op rest, s.events = .host op :: rest ∧
        (s.busy = false ∨ ∀ name, op ≠ .wait name) ∧
        s.nextTurn = (.host op, { s with events := rest })) ∨
      (s.busy = true ∧ ∃ rest, s.nextTurn = (.engine, { s with events := rest }) ∧
        (s.events = .engine :: rest ∨
          (s.events = rest ∧ (rest = [] ∨ ∃ name more, rest = .host (.wait name) :: more)))) := by
  unfold State.nextTurn
  split
  · next h =>
    cases hb : s.busy
    · exact .inl ⟨rfl, h, by simp⟩
    · refine .inr (.inr (.inr (.inr ⟨rfl, [], ?_, .inr ⟨h, .inl rfl⟩⟩)))
      cases s; simp_all
  · next rest h =>
    cases hb : s.busy
    · exact .inr (.inl ⟨rest, rfl, h, by simp⟩)
    · exact .inr (.inr (.inr (.inr ⟨rfl, rest, by simp, .inl h⟩)))
  · next rest h => exact .inr (.inr (.inl ⟨rest, h, rfl⟩))
  · next name rest h =>
    cases hb : s.busy
    · exact .inr (.inr (.inr (.inl ⟨_, rest, h, .inl rfl, by simp⟩)))
    · refine .inr (.inr (.inr (.inr ⟨rfl, s.events, ?_, .inr ⟨rfl, .inr ⟨name, rest, h⟩⟩⟩)))
      simp
  · next op rest hop h =>
    refine .inr (.inr (.inr (.inl ⟨op, rest, h, .inr fun name hn => ?_, rfl⟩)))
    exact hop name hn

/-- What a step that answers a next state did. -/
theorem step_cases {s t : State} (h : step s = .next t) :
    (s.busy = false ∧ ∃ rest, t = { s with events := rest }) ∨
      (∃ op rest, s.events = .host op :: rest ∧
        State.serve { s with events := rest } op = .next t) ∨
      (∃ rest, s.events = .reset :: rest ∧ t = State.applyReset { s with events := rest }) ∨
      (s.busy = true ∧ ∃ i rest, s.latchedInstr = some i ∧
        t = State.checked { s with events := rest } i (bodyOf i)) := by
  unfold step at h
  rcases s.nextTurn_cases with ⟨hb, -, hn⟩ | ⟨rest, hb, -, hn⟩ | ⟨rest, he, hn⟩ |
    ⟨op, rest, he, -, hn⟩ | ⟨hb, rest, hn, -⟩ <;> rw [hn] at h
  · exact .inl ⟨hb, s.events, by cases h; rfl⟩
  · exact .inl ⟨hb, rest, by cases h; rfl⟩
  · exact .inr (.inr (.inl ⟨rest, he, by cases h; rfl⟩))
  · exact .inr (.inl ⟨op, rest, he, h⟩)
  · refine .inr (.inr (.inr ⟨hb, ?_⟩))
    dsimp only at h
    split at h
    · next i hi => exact ⟨i, rest, hi, by rw [exec_eq] at h; cases h; rfl⟩
    · cases h

/-- What a host operation that answers a next state did: a register write, a value read, or a memory
write. -/
theorem State.serve_cases {s t : State} {op : HostOp} (h : s.serve op = .next t) :
    (∃ addr w off, op = .wr addr w ∧ portOffset s.params addr = some off ∧
        t = s.writeReg (regAt off) w) ∨
      (∃ o, t = s.observe o) ∨
      (∃ addr bytes, op = .mw addr bytes ∧ addr + bytes.length ≤ s.params.memBytes ∧
        t = s.hostWrite addr bytes) := by
  cases op with
  | wr addr w =>
    simp only [State.serve] at h
    split at h
    · next off ho => cases h; exact .inl ⟨addr, w, off, rfl, ho, rfl⟩
    · cases h
  | rd addr name =>
    simp only [State.serve] at h
    split at h
    · cases h; exact .inr (.inl ⟨_, rfl⟩)
    · cases h
  | mw addr bytes =>
    simp only [State.serve] at h
    split at h
    · next hr =>
      cases h
      exact .inr (.inr ⟨addr, bytes, rfl, by simpa [hostRangeExists] using hr, rfl⟩)
    · cases h
  | mr addr n name =>
    simp only [State.serve] at h
    split at h
    · cases h; exact .inr (.inl ⟨_, rfl⟩)
    · cases h
  | wait name => simp only [State.serve] at h; cases h; exact .inr (.inl ⟨_, rfl⟩)

/-- A host operation faults only for a memory access beyond the memory (log entry 9). -/
theorem State.serve_fault {s : State} {op : HostOp} {r : Fault} (h : s.serve op = .fault r) :
    r = .hostMemoryOutside ∧
      ((∃ addr bytes, op = .mw addr bytes ∧ s.params.memBytes < addr + bytes.length) ∨
        ∃ addr n name, op = .mr addr n name ∧ s.params.memBytes < addr + n) := by
  cases op with
  | wr addr w => simp only [State.serve] at h; split at h <;> cases h
  | rd addr name => simp only [State.serve] at h; split at h <;> cases h
  | mw addr bytes =>
    simp only [State.serve] at h
    split at h
    · cases h
    · next hr => cases h; exact ⟨rfl, .inl ⟨addr, bytes, rfl, by simpa [hostRangeExists] using hr⟩⟩
  | mr addr n name =>
    simp only [State.serve] at h
    split at h
    · cases h
    · next hr =>
      cases h
      exact ⟨rfl, .inr ⟨addr, n, name, rfl, by simpa [hostRangeExists] using hr⟩⟩
  | wait name => simp only [State.serve] at h; cases h

/-- A host operation is refused only for a register access the port cannot express (U17). -/
theorem State.serve_refused {s : State} {op : HostOp} {r : Refusal} (h : s.serve op = .refused r) :
    r = .registerAccessOutsidePort ∧
      ∃ addr, ((∃ w, op = .wr addr w) ∨ ∃ name, op = .rd addr name) ∧
        portOffset s.params addr = none := by
  cases op with
  | wr addr w =>
    simp only [State.serve] at h
    split at h
    · cases h
    · next ho => cases h; exact ⟨rfl, addr, .inl ⟨w, rfl⟩, ho⟩
  | rd addr name =>
    simp only [State.serve] at h
    split at h
    · cases h
    · next ho => cases h; exact ⟨rfl, addr, .inr ⟨name, rfl⟩, ho⟩
  | mw addr bytes => simp only [State.serve] at h; split at h <;> cases h
  | mr addr n name => simp only [State.serve] at h; split at h <;> cases h
  | wait name => simp only [State.serve] at h; cases h

/-- A step faults only in serving a host operation. -/
theorem step_fault {s : State} {r : Fault} (h : step s = .fault r) :
    ∃ op rest, s.events = .host op :: rest ∧
      State.serve { s with events := rest } op = .fault r := by
  unfold step at h
  rcases s.nextTurn_cases with ⟨-, -, hn⟩ | ⟨rest, -, -, hn⟩ | ⟨rest, -, hn⟩ |
    ⟨op, rest, he, -, hn⟩ | ⟨-, rest, hn, -⟩ <;> rw [hn] at h
  · cases h
  · cases h
  · cases h
  · exact ⟨op, rest, he, h⟩
  · dsimp only at h
    split at h
    · next i _ => rw [exec_eq] at h; cases h
    · cases h

/-- A step is refused only in serving a host operation, or where the latched `op` is no opcode. -/
theorem step_refused {s : State} {r : Refusal} (h : step s = .refused r) :
    (∃ op rest, s.events = .host op :: rest ∧
        State.serve { s with events := rest } op = .refused r) ∨
      (s.busy = true ∧ s.latchedInstr = none ∧ r = .latchedOpIllegal) := by
  unfold step at h
  rcases s.nextTurn_cases with ⟨-, -, hn⟩ | ⟨rest, -, -, hn⟩ | ⟨rest, -, hn⟩ |
    ⟨op, rest, he, -, hn⟩ | ⟨hb, rest, hn, -⟩ <;> rw [hn] at h
  · cases h
  · cases h
  · cases h
  · exact .inl ⟨op, rest, he, h⟩
  · dsimp only at h
    split at h
    · next i _ => rw [exec_eq] at h; cases h
    · next hl => cases h; exact .inr ⟨hb, hl, rfl⟩

end Sys2Proof.Machine
end

