-- ==== Sys2Proof/Tests/Slice0.lean ====
section
/-! SUPPORT. Tests of single steps, and for each obligation with hypotheses a witness that meets them.
Expected values are the spec's: its encodings, its examples and 95_test_vectors.md. -/

namespace Sys2Proof.Tests

open Sys2Proof.Machine Sys2Proof.Claims

/-! Well-formedness: an ill-formed term for each check, which the check refuses. -/

theorem test_wf_reserved_bits : commandWordWf 0x00000011 = false := by decide
theorem test_wf_top_reserved_bit : commandWordWf 0x80000001 = false := by decide
theorem test_wf_opcode_zero : commandWordWf 0x00000000 = false := by decide
theorem test_wf_opcode_seven : commandWordWf 0x00000007 = false := by decide
theorem test_wf_legal : commandWordWf 0x00000006 = true := by decide
theorem test_wf_no_memory : Params.memBytesWf ⟨0, none, 0⟩ = false := by decide
theorem test_wf_large_memory : Params.memBytesWf ⟨2 ^ 32 + 1, none, 0⟩ = false := by decide
theorem test_wf_odd_buffer : Params.padBufWf ⟨1, some 136, 0⟩ = false := by decide
theorem test_wf_small_buffer : Params.padBufWf ⟨1, some 64, 0⟩ = false := by decide
theorem test_wf_parameters : Params.wf ⟨2 ^ 32, some 128, 0x4000⟩ = true := by decide

/-! Decoding: each command's word bit by bit (30_encoding.md R84), and illegal words (R85). -/

theorem test_decode_pad :
    decode 0b00000000000000000000000000000001 = .ok .pad := by rfl
theorem test_decode_expand :
    decode 0b00000000000000000000000000000010 = .ok .expand := by rfl
theorem test_decode_init :
    decode 0b00000000000000000000000000000011 = .ok .init := by rfl
theorem test_decode_compress :
    decode 0b00000000000000000000000000000100 = .ok .compress := by rfl
theorem test_decode_digest :
    decode 0b00000000000000000000000000000101 = .ok .digest := by rfl
theorem test_decode_hmac :
    decode 0b00000000000000000000000000000110 = .ok .hmac := by rfl
theorem test_decode_zero : decode 0x00000000 = .error .reservedOpcode := by rfl
theorem test_decode_fifteen : decode 0x0000000F = .error .reservedOpcode := by rfl
theorem test_decode_reserved_bit : decode 0x00000011 = .error .reservedBits := by rfl
theorem test_decode_table_word : decodeTableWord 32 6 = some .hmac := by decide

/-! Fixtures -/

/-- A machine after reset, with 4096 bytes of memory and a padded buffer of 1024 bytes. -/
def machine : State := State.powerOn ⟨0x1000, some 1024, 0x4000⟩

/-- "abc" at 0x100 (the examples of R105 and R180). -/
def abc : Memory := [(0x100, 0x61), (0x101, 0x62), (0x102, 0x63)]

/-- The padded block of "abc" at 0x100 (the example of R122). -/
def abcBlock : Memory := [(0x100, 0x61), (0x101, 0x62), (0x102, 0x63), (0x103, 0x80), (0x13F, 0x18)]

/-- The command `i` running on "abc" at 0x100, on the key "abc", with its output at 0x200. -/
def running (i : Instr) : State :=
  { machine with
    mem := abc
    phase := .run
    lat := ⟨opcodeOf i, 0x100, 3, 0x100, 3, 0x200⟩ }

/-- The command `i` running with its source beyond the end of memory. -/
def outOfRange (i : Instr) : State :=
  { running i with lat := ⟨opcodeOf i, 0x1001, 3, 0x100, 3, 0x200⟩ }

/-- The command `i` running on 1016 bytes, whose padded string has 1088 bytes. -/
def tooLong (i : Instr) : State :=
  { running i with lat := ⟨opcodeOf i, 0x100, 1016, 0x100, 3, 0x800⟩ }

/-- The command `i` running on 1015 bytes, whose padded string fills the padded buffer. -/
def atLimit (i : Instr) : State :=
  { running i with lat := ⟨opcodeOf i, 0x100, 1015, 0x100, 3, 0x800⟩ }

/-- A condition on the next state, false where there is none. -/
def after (o : Host.Outcome State Fault Refusal) (p : State → Bool) : Bool :=
  match o with
  | .next t => p t
  | .fault _ => false
  | .refused _ => false

/-! One step of each command -/

/-- R105, the example. -/
theorem test_pad_abc :
    after (step (running .pad)) (fun t => t.outLen == 64 && t.done && t.mem.read 0x202 == 0x63
      && t.mem.read 0x203 == 0x80 && t.mem.read 0x23F == 0x18) = true := by decide +kernel

/-- R105: 1016 bytes need 1088 bytes of padded buffer, so ALLOC; nothing is written. -/
theorem test_pad_alloc :
    after (step (tooLong .pad)) (fun t => t.err && t.errcode == 3 && t.mem == abc && !t.done)
      = true := by decide +kernel

/-- R122, the example: `W[16]` is 9092e200 and `Wp[15]` is 719c70f5. -/
theorem test_expand_abc :
    (expand (abcBlock.readBytes 0x100 64)).1.getD 16 0 = 0x9092E200 ∧
      (expand (abcBlock.readBytes 0x100 64)).2.getD 15 0 = 0x719C70F5 := by decide +kernel

/-- R122: one byte too few for the 528 bytes of output is RANGE. -/
theorem test_expand_range :
    after (step { running .expand with lat := ⟨2, 0x100, 0, 0, 0, 0xDF1⟩ })
      (fun t => t.err && t.errcode == 2 && t.outLen == 0 && t.mem == abc) = true := by
  decide +kernel

/-- R150: `V0` is 7380166F and `V7` is B0FB0E4E. -/
theorem test_init :
    after (step { running .init with v := ⟨0, 0, 0, 0, 0, 0, 0, 0⟩ }) (fun t => t.done
      && t.v.get 0 == 0x7380166F && t.v.get 7 == 0xB0FB0E4E && t.outLen == 0) = true := by
  decide +kernel

/-- R151, the example: the digest of "abc" in `V`, from its padded block. -/
theorem test_compress_abc :
    after (step { running .compress with mem := abcBlock }) (fun t => t.done && t.v ==
      ⟨0x66C7F0F4, 0x62EEEDD9, 0xD1F2D46B, 0xDC10E4E2,
        0x4167C487, 0x5CF2F7A2, 0x297DA02B, 0x8F4BA8E0⟩) = true := by decide +kernel

/-- R180, the example: the first and the last word of the digest of "abc" at `dst`. -/
theorem test_digest_abc :
    after (step (running .digest)) (fun t => t.outLen == 32
      && t.mem.readBytes 0x200 4 == [0x66, 0xC7, 0xF0, 0xF4]
      && t.mem.readBytes 0x21C 4 == [0x8F, 0x4B, 0xA8, 0xE0]) = true := by decide +kernel

/-- R206: a source out of range is RANGE, also where the padded buffer is too small. -/
theorem test_digest_range_before_alloc :
    after (step { running .digest with lat := ⟨5, 0x100, 0xFFFFFFFF, 0, 0, 0x200⟩ })
      (fun t => t.err && t.errcode == 2) = true := by decide +kernel

/-- R181, the example: key "key", message "abc". -/
theorem test_hmac_key_abc :
    after (step { running .hmac with
      mem := abc ++ [(0x300, 0x6B), (0x301, 0x65), (0x302, 0x79)]
      lat := ⟨6, 0x100, 3, 0x300, 3, 0x200⟩ }) (fun t => t.v.get 0 == 0x28E63256
        && t.mem.readBytes 0x21C 4 == [0xF9, 0xD5, 0x23, 0x93]) = true := by decide +kernel

/-- R181: HMAC checks the key's range; PAD, with the same operands, does not. -/
theorem test_hmac_key_range :
    after (step { running .hmac with lat := ⟨6, 0x100, 3, 0xFFE, 3, 0x200⟩ })
      (fun t => t.err && t.errcode == 2) = true ∧
    after (step { running .pad with lat := ⟨1, 0x100, 3, 0xFFE, 3, 0x200⟩ })
      (fun t => t.done && !t.err) = true := by decide +kernel

/-! The port -/

/-- R29: BUSY, DONE, ERR, OVR and ERRCODE in `STATUS`: a failed command with code 3 and OVR set. -/
theorem test_status_word :
    State.statusWord { machine with err := true, ovr := true, errcode := 3 } = 0x0000003C := by
  decide

/-- R88 `clear`: the write 0x0000000E clears DONE, ERR, ERRCODE and OVR. -/
theorem test_clear :
    after (step { machine with
      err := true, ovr := true, errcode := 3, events := [.host (.wr 0x4004 0x0000000E)] })
      (fun t => t.statusWord == 0) = true := by decide +kernel

/-- R82: an illegal word while idle is rejected with code 1 at once. -/
theorem test_illegal_command :
    after (step { machine with done := true, events := [.host (.wr 0x4000 0x00000007)] })
      (fun t => t.statusWord == 0x00000014) = true := by decide +kernel

/-- R28: a `CMD` write while BUSY = 1 sets OVR and leaves the running command. -/
theorem test_overrun :
    after (step { running .pad with events := [.host (.wr 0x4000 0x00000003)] })
      (fun t => t.statusWord == 0x00000009 && t.lat == (running .pad).lat) = true := by
  decide +kernel

/-- R22, U17: a misaligned register access is refused. -/
theorem test_misaligned :
    machine.serve (.rd 0x4002 0) = .refused .registerAccessOutsidePort := by rfl

/-! What the witnesses rest on -/

theorem running_pad_fits : rangesFit .pad (running .pad) ∧ bufferFits .pad (running .pad) :=
  ⟨⟨by decide, by decide⟩, fun _ h => by cases h; decide⟩

theorem running_expand_fits : rangesFit .expand (running .expand) := ⟨by decide, by decide⟩

theorem running_compress_fits : rangesFit .compress (running .compress) := by
  show _ ≤ _; decide

theorem running_digest_fits :
    rangesFit .digest (running .digest) ∧ bufferFits .digest (running .digest) :=
  ⟨⟨by decide, by decide⟩, fun _ h => by cases h; decide⟩

theorem running_hmac_fits :
    rangesFit .hmac (running .hmac) ∧ bufferFits .hmac (running .hmac) :=
  ⟨⟨by decide, by decide, by decide⟩, fun _ h => by cases h; decide⟩

theorem out_of_range_misfits :
    ¬rangesFit .pad (outOfRange .pad) ∧ ¬rangesFit .expand (outOfRange .expand) ∧
      ¬rangesFit .compress (outOfRange .compress) ∧ ¬rangesFit .digest (outOfRange .digest) ∧
        ¬rangesFit .hmac (outOfRange .hmac) :=
  ⟨fun h => absurd h.1 (by decide), fun h => absurd h.1 (by decide),
    fun h => absurd (show _ ≤ _ from h) (by decide), fun h => absurd h.1 (by decide),
    fun h => absurd h.2.1 (by decide)⟩

theorem too_long_misfits :
    (rangesFit .pad (tooLong .pad) ∧ ¬bufferFits .pad (tooLong .pad)) ∧
      (rangesFit .digest (tooLong .digest) ∧ ¬bufferFits .digest (tooLong .digest)) ∧
        (rangesFit .hmac (tooLong .hmac) ∧ ¬bufferFits .hmac (tooLong .hmac)) :=
  ⟨⟨⟨by decide, by decide⟩, fun h => absurd (h 1024 rfl) (by decide)⟩,
    ⟨⟨by decide, by decide⟩, fun h => absurd (h 1024 rfl) (by decide)⟩,
    ⟨⟨by decide, by decide, by decide⟩, fun h => absurd (h 1024 rfl) (by decide)⟩⟩

theorem machine_inv : machine.Inv :=
  ⟨by decide, by decide, by decide, ⟨by decide, by decide, by decide, by decide⟩,
    ⟨by decide, by decide, by decide⟩,
    ⟨by decide, by decide, by decide, by decide, by decide, by decide⟩⟩

theorem running_inv (i : Instr) : (running i).Inv := by
  cases i <;>
  exact ⟨by decide, by decide, by decide, ⟨by decide, by decide, by decide, by decide⟩,
    ⟨by decide, by decide, by decide⟩,
    ⟨by decide, by decide, by decide, by decide, by decide, by decide⟩⟩

theorem out_of_range_inv : (outOfRange .pad).Inv :=
  ⟨by decide, by decide, by decide, ⟨by decide, by decide, by decide, by decide⟩,
    ⟨by decide, by decide, by decide⟩,
    ⟨by decide, by decide, by decide, by decide, by decide, by decide⟩⟩

theorem too_long_inv : (tooLong .pad).Inv :=
  ⟨by decide, by decide, by decide, ⟨by decide, by decide, by decide, by decide⟩,
    ⟨by decide, by decide, by decide⟩,
    ⟨by decide, by decide, by decide, by decide, by decide, by decide⟩⟩

/-- The invariant says nothing of the inputs to come and of the registers the host alone writes. -/
theorem inv_events {s : State} (h : s.Inv) (ev : List Event) : State.Inv { s with events := ev } :=
  ⟨h.params, h.memWf, h.memWithin, ⟨h.report.notBoth, h.report.codeZero, h.report.codeKnown,
    h.report.failedLength⟩, ⟨h.running.clean, h.running.legal, h.running.noRace⟩,
    ⟨h.engine.buffer, h.engine.words, h.engine.counter, h.engine.key, h.engine.pads,
      h.engine.inner⟩⟩

/-! Witnesses: for each obligation with hypotheses, a state and operands that meet them together, and
for several clauses one for each at a boundary of its range. -/

theorem witness_DecodeInvertsEncode : decode 0x00000006 = .ok .hmac := by rfl

/-- The three ways the engine gets the turn. -/
theorem witness_StepRunsLatchedCommand :
    (running .hmac).phase = .run ∧ decode ((running .hmac).lat.op.setWidth 32) = .ok .hmac ∧
      (State.events { running .hmac with events := [.engine] } = .engine :: []) ∧
      (running .hmac).events = [] ∧
      (State.events { running .hmac with events := [.host (.wait 0)] }
        = .host (.wait 0) :: []) := ⟨rfl, rfl, rfl, rfl, rfl⟩

/-- A `wait` while idle, another operation while a command runs, reset, the turn of an idle engine,
no input. -/
theorem witness_StepServesHostAndReset :
    (State.events { machine with events := [.host (.wait 0)] } = .host (.wait 0) :: [] ∧
      machine.phase = .idle) ∧
    (State.events { running .pad with events := [.host (.rd 0x4000 0)] }
        = .host (.rd 0x4000 0) :: [] ∧ ∀ name, HostOp.rd 0x4000 0 ≠ .wait name) ∧
    State.events { running .pad with events := [.reset] } = .reset :: [] ∧
    State.events { machine with events := [.engine] } = .engine :: [] ∧
    machine.events = [] := ⟨⟨rfl, rfl⟩, ⟨rfl, fun _ h => by cases h⟩, rfl, rfl, rfl⟩

theorem witness_WaitRecordsStatus :
    State.phase { machine with events := [.host (.wait 0)] } = .idle ∧
      State.events { machine with events := [.host (.wait 0)] } = .host (.wait 0) :: [] := ⟨rfl, rfl⟩

/-- RANGE, ALLOC, and success with the largest buffer that fits; L is below 2^32. -/
theorem witness_PadWritesPaddedMessage :
    ¬rangesFit .pad (outOfRange .pad) ∧
    (rangesFit .pad (tooLong .pad) ∧ ¬bufferFits .pad (tooLong .pad)) ∧
    (rangesFit .pad (atLimit .pad) ∧ bufferFits .pad (atLimit .pad) ∧ unraced (atLimit .pad) ∧
      padLen (atLimit .pad).lat.slen.toNat < 2 ^ 32) :=
  ⟨out_of_range_misfits.1, too_long_misfits.1,
    ⟨by decide, by decide⟩, fun _ h => by cases h; decide, ⟨rfl, rfl⟩, by decide⟩

/-- RANGE, and success with the output at the end of memory. -/
theorem witness_ExpandWritesBothArrays :
    ¬rangesFit .expand (outOfRange .expand) ∧
    (rangesFit .expand { running .expand with lat := ⟨2, 0xFC0, 0, 0, 0, 0xDF0⟩ } ∧
      unraced { running .expand with lat := ⟨2, 0xFC0, 0, 0, 0, 0xDF0⟩ }) :=
  ⟨out_of_range_misfits.2.1, ⟨by decide, by decide⟩, rfl, rfl⟩

/-- RANGE, and success with the block at the end of memory. -/
theorem witness_CompressFoldsBlock :
    ¬rangesFit .compress (outOfRange .compress) ∧
    (rangesFit .compress { running .compress with lat := ⟨4, 0xFC0, 0, 0, 0, 0⟩ } ∧
      unraced { running .compress with lat := ⟨4, 0xFC0, 0, 0, 0, 0⟩ }) :=
  ⟨out_of_range_misfits.2.2.1, by show _ ≤ _; decide, rfl, rfl⟩

theorem witness_DigestHashesMessage :
    ¬rangesFit .digest (outOfRange .digest) ∧
    (rangesFit .digest (tooLong .digest) ∧ ¬bufferFits .digest (tooLong .digest)) ∧
    (rangesFit .digest (atLimit .digest) ∧ bufferFits .digest (atLimit .digest) ∧
      unraced (atLimit .digest)) :=
  ⟨out_of_range_misfits.2.2.2.1, too_long_misfits.2.1,
    ⟨by decide, by decide⟩, fun _ h => by cases h; decide, rfl, rfl⟩

theorem witness_HmacAuthenticatesMessage :
    ¬rangesFit .hmac (outOfRange .hmac) ∧
    (rangesFit .hmac (tooLong .hmac) ∧ ¬bufferFits .hmac (tooLong .hmac)) ∧
    (rangesFit .hmac (running .hmac) ∧ bufferFits .hmac (running .hmac) ∧
      unraced (running .hmac)) :=
  ⟨out_of_range_misfits.2.2.2.2, too_long_misfits.2.2, running_hmac_fits.1, running_hmac_fits.2,
    rfl, rfl⟩

/-- The two addresses beside the 64 bytes of PAD's output, the cases of failure and success. -/
theorem witness_CommandFrame :
    ¬isDestination .pad (running .pad) 0x1FF ∧ ¬isDestination .pad (running .pad) 0x240 ∧
    ¬isDestination .compress (running .compress) 0x200 ∧
    ¬(rangesFit .hmac (outOfRange .hmac) ∧ bufferFits .hmac (outOfRange .hmac)) ∧
    (rangesFit .pad (running .pad) ∧ bufferFits .pad (running .pad)) :=
  ⟨fun h => absurd h.1 (by decide), fun h => absurd h.2 (by decide),
    fun h => absurd h.2 (by decide), fun h => out_of_range_misfits.2.2.2.2 h.1, running_pad_fits⟩

/-- The host has written the first and the last byte of the output, and the input too or not. -/
theorem witness_RacedCommandCompletes (racedInput : Bool) :
    State.mem { running .digest with raceIn := racedInput, raceOut := [0x200, 0x21F] } = abc ∧
    abc.wf = true ∧
    rangesFit .digest { running .digest with raceIn := racedInput, raceOut := [0x200, 0x21F] } ∧
    bufferFits .digest { running .digest with raceIn := racedInput, raceOut := [0x200, 0x21F] } ∧
    bytesWritten .digest { running .digest with raceIn := racedInput, raceOut := [0x200, 0x21F] }
      = 32 :=
  ⟨rfl, rfl, running_digest_fits.1, running_digest_fits.2, rfl⟩

/-- The clause on `V`: only destination bytes were raced. -/
theorem witness_RacedCommandCompletes_chaining :
    State.raceIn { running .digest with raceIn := false, raceOut := [0x200, 0x21F] } = false ∧
    State.raceOut { running .digest with raceIn := false, raceOut := [0x200, 0x21F] } ≠ [] ∧
    State.mem { running .digest with raceIn := false, raceOut := [0x200, 0x21F] } = abc ∧
    abc.wf = true ∧
    rangesFit .digest { running .digest with raceIn := false, raceOut := [0x200, 0x21F] } ∧
    bufferFits .digest { running .digest with raceIn := false, raceOut := [0x200, 0x21F] } :=
  ⟨rfl, by decide, rfl, rfl, running_digest_fits.1, running_digest_fits.2⟩

theorem witness_ChainingWordsAreOutputWords :
    (running .hmac).mem.wf = true ∧ unraced (running .hmac) ∧ rangesFit .hmac (running .hmac) ∧
      bufferFits .hmac (running .hmac) :=
  ⟨rfl, ⟨rfl, rfl⟩, running_hmac_fits⟩

/-- The destination lies over the source. -/
theorem witness_ExpandRepeatsItsBlock :
    State.mem { running .expand with lat := ⟨2, 0x100, 0, 0, 0, 0x101⟩ } = abc ∧ abc.wf = true ∧
    unraced { running .expand with lat := ⟨2, 0x100, 0, 0, 0, 0x101⟩ } ∧
    rangesFit .expand { running .expand with lat := ⟨2, 0x100, 0, 0, 0, 0x101⟩ } :=
  ⟨rfl, rfl, ⟨rfl, rfl⟩, by decide, by decide⟩

theorem witness_CompressChainIsDigest :
    machine.params.wf = true ∧ unraced machine ∧ machine.v = iv ∧
      0x100 + padLen [0x61, 0x62, 0x63].length ≤ machine.params.memBytes ∧
      State.mem { machine with mem := abcBlock } = abcBlock ∧
      abcBlock.readBytes 0x100 (padLen [0x61, 0x62, 0x63].length) = pad [0x61, 0x62, 0x63] :=
  ⟨rfl, ⟨rfl, rfl⟩, rfl, by decide, rfl, by decide⟩

theorem witness_DigestAndHmacIgnoreChainingWords :
    (rangesFit .digest (running .digest) ∧ bufferFits .digest (running .digest)) ∧
      (rangesFit .hmac (running .hmac) ∧ bufferFits .hmac (running .hmac)) :=
  ⟨running_digest_fits, running_hmac_fits⟩

/-- For each clause, operands that differ from those of `running` in all that the command ignores. -/
theorem witness_UnreadOperandsAreIgnored :
    Latched.src ⟨0, 0x100, 9, 9, 9, 9⟩ = (running .compress).lat.src ∧
    (Latched.src ⟨0, 0x100, 9, 9, 9, 0x200⟩ = (running .expand).lat.src ∧
      Latched.dst ⟨0, 0x100, 9, 9, 9, 0x200⟩ = (running .expand).lat.dst) ∧
    (Latched.src ⟨0, 0x100, 3, 9, 9, 0x200⟩ = (running .digest).lat.src ∧
      Latched.slen ⟨0, 0x100, 3, 9, 9, 0x200⟩ = (running .digest).lat.slen ∧
      Latched.dst ⟨0, 0x100, 3, 9, 9, 0x200⟩ = (running .digest).lat.dst) ∧
    (Latched.src ⟨0, 0x100, 3, 0x100, 3, 0x200⟩ = (running .hmac).lat.src ∧
      Latched.slen ⟨0, 0x100, 3, 0x100, 3, 0x200⟩ = (running .hmac).lat.slen ∧
      Latched.dst ⟨0, 0x100, 3, 0x100, 3, 0x200⟩ = (running .hmac).lat.dst ∧
      Latched.key ⟨0, 0x100, 3, 0x100, 3, 0x200⟩ = (running .hmac).lat.key ∧
      Latched.klen ⟨0, 0x100, 3, 0x100, 3, 0x200⟩ = (running .hmac).lat.klen) :=
  ⟨rfl, ⟨rfl, rfl⟩, ⟨rfl, rfl, rfl⟩, rfl, rfl, rfl, rfl, rfl⟩

/-- The shortest key that is hashed. No two different keys with one digest are known; the second key
is the first. -/
theorem witness_CollapsedKeysGiveSameHmac :
    64 < (List.replicate 65 (0 : Byte)).length ∧
      digest (List.replicate 65 (0 : Byte)) = digest (List.replicate 65 (0 : Byte)) :=
  ⟨by decide, rfl⟩

theorem witness_RotateMovesEveryBit : 0 < 32 ∧ 31 < 32 := by decide

/-- The empty message and its first and last zero byte. -/
theorem witness_PaddedLayout :
    ([] : List Byte).length ≤ 2 ^ 32 + 63 ∧
      (([] : List Byte).length + 1 ≤ 1 ∧ 1 < padLen ([] : List Byte).length - 8) ∧
      (([] : List Byte).length + 1 ≤ 55 ∧ 55 < padLen ([] : List Byte).length - 8) := by decide

theorem witness_ExpansionSatisfiesRecurrence :
    15 < 16 ∧ (16 ≤ 16 ∧ 16 < 68) ∧ (16 ≤ 67 ∧ 67 < 68) ∧ 63 < 64 := by decide

theorem witness_BooleanFunctionsBitByBit : 31 < 32 ∧ 15 < 16 ∧ 16 ≤ 16 := by decide

theorem witness_HmacNeedIsLongestPaddedString : 64 < (List.replicate 65 (0 : Byte)).length := by
  decide

/-- A reserved bit, the two neighbours of the legal opcodes, and the first and the last of these. -/
theorem witness_AcceptanceOfCommandWord :
    machine.phase = .idle ∧ BitVec.extractLsb' 4 28 (0x00000011 : Word) ≠ 0 ∧
      (BitVec.extractLsb' 0 4 (0x00000000 : Word)).toNat < 1 ∧
      6 < (BitVec.extractLsb' 0 4 (0x00000007 : Word)).toNat ∧
      (BitVec.extractLsb' 4 28 (0x00000001 : Word) = 0 ∧
        1 ≤ (BitVec.extractLsb' 0 4 (0x00000001 : Word)).toNat ∧
        (BitVec.extractLsb' 0 4 (0x00000001 : Word)).toNat ≤ 6) ∧
      (BitVec.extractLsb' 4 28 (0x00000006 : Word) = 0 ∧
        1 ≤ (BitVec.extractLsb' 0 4 (0x00000006 : Word)).toNat ∧
        (BitVec.extractLsb' 0 4 (0x00000006 : Word)).toNat ≤ 6) := by decide

/-- A command is running; a write of bit 3; OVR is cleared by that write, and by reset. -/
theorem witness_OverrunIsDroppedAndSticky :
    (running .pad).phase = .run ∧ BitVec.getLsbD (0x00000008 : Word) 3 = true ∧
    (∃ t, step { machine with ovr := true, events := [.host (.wr 0x4004 0x8)] } = .next t ∧
      t.ovr = false) ∧
    ∃ t, step { machine with ovr := true, events := [.reset] } = .next t ∧ t.ovr = false :=
  ⟨rfl, rfl, ⟨_, rfl, rfl⟩, _, rfl, rfl⟩

/-- BUSY rises by acceptance, and falls by success, by failure and by reset. -/
theorem witness_BusyFromAcceptanceToCompletion :
    (State.Inv { machine with events := [.host (.wr 0x4000 0x1)] } ∧
      ∃ t, step { machine with events := [.host (.wr 0x4000 0x1)] } = .next t ∧
        t.busy = true) ∧
    ((running .init).Inv ∧ ∃ t, step (running .init) = .next t ∧ t.busy = false ∧
      t.done = true) ∧
    ((outOfRange .pad).Inv ∧ ∃ t, step (outOfRange .pad) = .next t ∧ t.busy = false ∧
      t.err = true) ∧
    (State.Inv { running .pad with events := [.reset] } ∧
      ∃ t, step { running .pad with events := [.reset] } = .next t ∧ t.busy = false) :=
  ⟨⟨inv_events machine_inv _, _, rfl, rfl⟩, ⟨running_inv _, _, rfl, rfl, rfl⟩,
    ⟨out_of_range_inv, _, rfl, rfl, rfl⟩, inv_events (running_inv _) _, _, rfl, rfl⟩

/-- DONE rises by success, and falls by a `CMD` write, by a `STATUS` write and by reset. -/
theorem witness_DoneRisesOnSuccessOnly :
    (∃ t, step (running .init) = .next t ∧ (running .init).done = false ∧ t.done = true) ∧
    (∃ t, step { machine with done := true, events := [.host (.wr 0x4000 0x0)] } = .next t ∧
      t.done = false) ∧
    (∃ t, step { machine with done := true, events := [.host (.wr 0x4004 0x2)] } = .next t ∧
      t.done = false) ∧
    ∃ t, step { machine with done := true, events := [.reset] } = .next t ∧ t.done = false :=
  ⟨⟨_, rfl, rfl, rfl⟩, ⟨_, rfl, rfl⟩, ⟨_, rfl, rfl⟩, _, rfl, rfl⟩

theorem witness_StatusReadsAndWrites : machine.Inv ∧ machine.err = false := ⟨machine_inv, rfl⟩

/-- The three failures: ILLEGAL_CMD, RANGE, ALLOC. -/
theorem witness_FailureLeavesNoPartialResult :
    (State.Inv { machine with events := [.host (.wr 0x4000 0x0)] } ∧
      ∃ t, step { machine with events := [.host (.wr 0x4000 0x0)] } = .next t ∧ t.err = true ∧
        t.errcode = 1) ∧
    ((outOfRange .pad).Inv ∧ ∃ t, step (outOfRange .pad) = .next t ∧ t.err = true ∧
      t.errcode = 2) ∧
    ((tooLong .pad).Inv ∧ ∃ t, step (tooLong .pad) = .next t ∧ t.err = true ∧ t.errcode = 3) :=
  ⟨⟨inv_events machine_inv _, _, rfl, rfl, rfl⟩, ⟨out_of_range_inv, _, rfl, rfl, rfl⟩,
    too_long_inv, _, rfl, rfl, rfl⟩

/-- IE is set; idle; a write of bits 1 and 2. -/
theorem witness_InterruptLevel :
    State.ie { running .pad with ie := true } = true ∧ machine.phase = .idle ∧
      BitVec.getLsbD (0x00000006 : Word) 1 = true ∧
      BitVec.getLsbD (0x00000006 : Word) 2 = true := ⟨rfl, rfl, rfl, rfl⟩

theorem witness_OperandRegisters :
    ((0x10 : Nat) = 0x10 ∨ (0x10 : Nat) = 0x14 ∨ (0x10 : Nat) = 0x18 ∨ (0x10 : Nat) = 0x1C ∨
      (0x10 : Nat) = 0x20) ∧
    ((0x20 : Nat) = 0x10 ∨ (0x20 : Nat) = 0x14 ∨ (0x20 : Nat) = 0x18 ∨ (0x20 : Nat) = 0x1C ∨
      (0x20 : Nat) = 0x20) := by decide

/-- The ends of the two reserved ranges. -/
theorem witness_ReservedOffsets :
    (0x24 % 4 = 0 ∧ 0x24 ≤ 0x24 ∧ 0x24 ≤ 0x3C) ∧ (0x3C % 4 = 0 ∧ 0x24 ≤ 0x3C) ∧
      (0x60 % 4 = 0 ∧ 0x60 ≤ 0x60 ∧ 0x60 ≤ 0xFC) ∧ (0xFC % 4 = 0 ∧ 0x60 ≤ 0xFC) := by decide

theorem witness_ResultRegistersAreReadOnly : machine.phase = .idle := rfl

/-- Misaligned, below the window, above it; one byte past the end of memory. -/
theorem witness_InexpressibleAccessStops :
    ¬hostOpExists machine.params (.wr 0x4002 0) ∧ ¬hostOpExists machine.params (.wr 0x3FFC 0) ∧
      ¬hostOpExists machine.params (.wr 0x4100 0) ∧
      machine.params.memBytes < 0xFFF + [(0 : Byte), 0].length ∧
      machine.params.memBytes < 0x1001 + 0 :=
  ⟨fun h => absurd h.2.2 (by decide), fun h => absurd h.1 (by decide),
    fun h => absurd h.2.1 (by decide), by decide, by decide⟩

/-- The last byte of memory, and another one. -/
theorem witness_HostReadsBackItsWrite :
    machine.mem.wf = true ∧ machine.phase = .idle ∧
      0xFFF + [(0x5A : Byte)].length ≤ machine.params.memBytes ∧
      ¬(0xFFF ≤ 0xFFE ∧ 0xFFE < 0xFFF + [(0x5A : Byte)].length) := by decide

/-- A byte that is source and destination. -/
theorem witness_HostWriteDuringCommand :
    (running .hmac).phase = .run ∧ (running .hmac).latchedInstr = some .hmac ∧
      0x102 + [(0 : Byte)].length ≤ (running .hmac).params.memBytes ∧
      isSource .hmac (running .hmac) 0x102 ∧ isDestination .hmac (running .hmac) 0x21F :=
  ⟨rfl, rfl, by decide, .inl ⟨by decide, by decide⟩, by decide, by decide⟩

/-- The byte below a running command's destination range, and a byte of it while idle. -/
theorem witness_HostReadDuringCommand :
    0x1FF + 1 ≤ (running .digest).params.memBytes ∧
      (∀ i, (running .digest).latchedInstr = some i →
        ¬isDestination i (running .digest) (0x1FF + 0)) ∧
      machine.phase = .idle :=
  ⟨by decide, fun i h => by cases h; exact fun h => absurd h.1 (by decide), rfl⟩

theorem witness_ResetValues :
    State.events { running .hmac with events := [.reset] } = .reset :: [] := rfl

/-- A running command that would have succeeded, and one that would have failed; idle. -/
theorem witness_ResetKeepsMemory :
    machine.phase = .idle ∧
    ((running .digest).phase = .run ∧ (running .digest).latchedInstr = some .digest ∧
      ¬isDestination .digest (running .digest) 0x220) ∧
    ((outOfRange .pad).phase = .run ∧ (outOfRange .pad).latchedInstr = some .pad ∧
      ¬(rangesFit .pad (outOfRange .pad) ∧ bufferFits .pad (outOfRange .pad))) :=
  ⟨rfl, ⟨rfl, rfl, fun h => absurd h.2 (by decide)⟩, rfl, rfl,
    fun h => out_of_range_misfits.1 h.1⟩

/-- `V` changes by reset and by INIT. -/
theorem witness_ChainingWordsWriters :
    (∃ t, step { machine with v := ⟨0, 0, 0, 0, 0, 0, 0, 0⟩, events := [.reset] } = .next t ∧
      t.v ≠ ⟨0, 0, 0, 0, 0, 0, 0, 0⟩) ∧
    ∃ t, step { running .init with v := ⟨0, 0, 0, 0, 0, 0, 0, 0⟩ } = .next t ∧
      t.v ≠ ⟨0, 0, 0, 0, 0, 0, 0, 0⟩ :=
  ⟨⟨_, rfl, fun h => absurd (congrArg Words8.a h) (by decide)⟩, _, rfl,
    fun h => absurd (congrArg Words8.a h) (by decide)⟩

theorem witness_StepKeepsInvariant :
    (running .init).Inv ∧ ∃ t, step (running .init) = .next t := ⟨running_inv _, _, rfl⟩

/-- The host's next operation is a write to the last offset of the window. -/
theorem witness_MachineNeverStops :
    State.Inv { machine with events := [.host (.wr 0x40FC 0)] } ∧
      ∀ op rest, State.events { machine with events := [.host (.wr 0x40FC 0)] }
        = .host op :: rest → hostOpExists machine.params op :=
  ⟨inv_events machine_inv _, fun op rest h => by
    cases h; exact ⟨by decide, by decide, by decide⟩⟩

/-- A command with a `wait` and a write before it, one that reset ends, and one before which a
host operation stops the machine. -/
theorem witness_RunningCommandCompletes :
    (State.Inv { running .hmac with events := [.host (.mw 0x200 []), .host (.wait 0)] } ∧
      State.busy { running .hmac with events := [.host (.mw 0x200 []), .host (.wait 0)] }
        = true) ∧
    (State.Inv { running .hmac with events := [.reset] } ∧
      State.busy { running .hmac with events := [.reset] } = true) ∧
    (State.Inv { running .hmac with events := [.host (.wr 0x4002 0)] } ∧
      State.busy { running .hmac with events := [.host (.wr 0x4002 0)] } = true) :=
  ⟨⟨inv_events (running_inv _) _, rfl⟩, ⟨inv_events (running_inv _) _, rfl⟩,
    inv_events (running_inv _) _, rfl⟩

end Sys2Proof.Tests
end

section
/-! PROOFS. Rotation and byte order (00_scope.md R9, R11). Two facts carry the section: `rotl` is
the library's rotation, and `be32` is the concatenation of its four bytes. -/

namespace Sys2Proof.Machine

/-- R9 is a rotation: where it has a case of its own, at an amount that is 0 mod 32, the library's
two shifts leave the word as it is too. -/
theorem rotl_eq_rotateLeft (x : Word) (n : Nat) : rotl x n = x.rotateLeft n := by
  rw [rotl, BitVec.rotateLeft_def]
  split
  · next h =>
    rw [h, BitVec.shiftLeft_zero, BitVec.ushiftRight_eq_zero (Nat.le_refl 32), BitVec.or_zero]
  · rfl

theorem getLsbD_rotl (x : Word) (n : Nat) {i : Nat} (hi : i < 32) :
    (rotl x n).getLsbD i =
      if i < n % 32 then x.getLsbD (32 - n % 32 + i) else x.getLsbD (i - n % 32) := by
  rw [rotl_eq_rotateLeft, BitVec.getLsbD_rotateLeft]
  split <;> simp [*]

/-- Settles O21: a bit that the rotation carries past bit 31 comes back at the bottom, and every
other bit moves up by `n % 32`. -/
theorem rotateMovesEveryBit : Obligations.RotateMovesEveryBit := by
  unfold Obligations.RotateMovesEveryBit
  intro x n k hk
  rw [getLsbD_rotl x n (Nat.mod_lt _ (by decide))]
  rcases Nat.lt_or_ge (k + n % 32) 32 with hstays | hwraps
  · have hpos : (k + n) % 32 = k + n % 32 := by omega
    rw [hpos, if_neg (by omega), Nat.add_sub_cancel]
  · have hpos : (k + n) % 32 = k + n % 32 - 32 := by omega
    have hback : 32 - n % 32 + (k + n % 32 - 32) = k := by omega
    rw [hpos, if_pos (by omega), hback]

theorem setWidth_append_eq_or {m n : Nat} (x : BitVec m) (y : BitVec n) (k : Nat) :
    (x ++ y).setWidth k = x.setWidth k <<< n ||| y.setWidth k := by
  ext i hi
  simp only [BitVec.getElem_setWidth, BitVec.getLsbD_append, BitVec.getElem_or,
    BitVec.getElem_shiftLeft]
  split
  · next h => simp [h]
  · next h => simp [h, BitVec.getLsbD_of_ge y i (Nat.le_of_not_lt h)]

theorem toNat_append_eq_add {m n : Nat} (x : BitVec m) (y : BitVec n) :
    (x ++ y).toNat = x.toNat * 2 ^ n + y.toNat := by
  rw [BitVec.toNat_append, ← Nat.shiftLeft_add_eq_or_of_lt y.isLt, Nat.shiftLeft_eq]

/-- `BE32` puts its bytes side by side, the first one on top. The width stays a sum of bytes, the
form in which the library's lemmas on `++` see where each byte ends. -/
theorem be32_eq_append (a b c d : Byte) :
    be32 [a, b, c, d] = (a ++ b ++ c ++ d : BitVec (8 + 8 + 8 + 8)) := by
  rw [← BitVec.setWidth_eq (a ++ b ++ c ++ d)]
  simp only [setWidth_append_eq_or, BitVec.shiftLeft_or_distrib, ← BitVec.shiftLeft_add]
  rfl

theorem toNat_be32 (a b c d : Byte) :
    (be32 [a, b, c, d]).toNat =
      a.toNat * 2 ^ 24 + b.toNat * 2 ^ 16 + c.toNat * 2 ^ 8 + d.toNat := by
  rw [be32_eq_append, toNat_append_eq_add, toNat_append_eq_add, toNat_append_eq_add]
  omega

/-- Neighbouring byte fields of the word join, from the top byte down, until the whole word is one
field. -/
@[simp] theorem be32_be32Bytes (x : Word) : be32 (be32Bytes x) = x := by
  rw [be32Bytes, be32_eq_append,
    BitVec.extractLsb'_append_extractLsb'_eq_extractLsb' (show 24 = 16 + 8 from rfl),
    BitVec.extractLsb'_append_extractLsb'_eq_extractLsb' (show 16 = 8 + 8 from rfl),
    BitVec.extractLsb'_append_extractLsb'_eq_extractLsb' (show 8 = 0 + 8 from rfl)]
  exact BitVec.extractLsb'_eq_self

/-- Each byte field of the concatenation lies within one of the four bytes. -/
@[simp] theorem be32Bytes_be32 (a b c d : Byte) : be32Bytes (be32 [a, b, c, d]) = [a, b, c, d] := by
  rw [be32_eq_append]
  simp (disch := decide) only [be32Bytes, BitVec.extractLsb'_append_eq_of_le,
    BitVec.extractLsb'_append_eq_of_add_le, Nat.reduceSub, BitVec.extractLsb'_eq_self]

theorem be64Bytes_append (hi lo : Word) : be64Bytes (hi ++ lo) = be32Bytes hi ++ be32Bytes lo := by
  rw [be64Bytes, BitVec.extractLsb'_append_eq_left, BitVec.extractLsb'_append_eq_right]

/-- Settles O22: the two inverses and the value all come from `BE32` being a concatenation. -/
theorem bigEndianBytesInvertWords : Obligations.BigEndianBytesInvertWords :=
  ⟨toNat_be32, be32_be32Bytes, be32Bytes_be32, be64Bytes_append⟩

end Sys2Proof.Machine
end

section
/-! PROOFS. The register port (10_state.md R22, R23): an access at an offset of the window is an
access to the register that stands there. -/

namespace Sys2Proof.Machine

/-- The port expresses the aligned accesses of the window, and no others (R22). -/
theorem portOffset_eq_some {p : Params} {addr off : Nat} :
    portOffset p addr = some off ↔ addr = p.regBase + off ∧ off < 0x100 ∧ off % 4 = 0 := by
  rw [portOffset]
  split
  · rw [Option.some.injEq]
    omega
  · simp only [reduceCtorEq, false_iff]
    omega

theorem State.serve_wr_offset (s : State) {off : Nat} (hlt : off < 0x100) (halign : off % 4 = 0)
    (w : Word) : s.serve (.wr (s.params.regBase + off) w) = .next (s.writeReg (regAt off) w) := by
  simp only [State.serve, portOffset_eq_some.mpr ⟨rfl, hlt, halign⟩]

theorem State.serve_rd_offset (s : State) {off : Nat} (hlt : off < 0x100) (halign : off % 4 = 0)
    (name : Nat) :
    s.serve (.rd (s.params.regBase + off) name) =
      .next (s.observe (.reg name (s.readReg (regAt off)))) := by
  simp only [State.serve, portOffset_eq_some.mpr ⟨rfl, hlt, halign⟩]

theorem State.serve_wr_cmd (s : State) (c : Word) :
    s.serve (.wr s.params.regBase c) = .next (s.writeCmd c) :=
  s.serve_wr_offset (off := 0x00) (by decide) (by decide) c

theorem State.serve_wr_status (s : State) (w : Word) :
    s.serve (.wr (s.params.regBase + 0x04) w) = .next (s.writeStatus w) :=
  s.serve_wr_offset (off := 0x04) (by decide) (by decide) w

theorem State.serve_rd_status (s : State) (name : Nat) :
    s.serve (.rd (s.params.regBase + 0x04) name) =
      .next (s.observe (.reg name s.statusWord)) :=
  s.serve_rd_offset (off := 0x04) (by decide) (by decide) name

theorem eq_of_regAt_eq_status {off : Nat} (h : regAt off = .status) : off = 0x04 := by
  unfold regAt at h
  split at h <;> cases h
  rfl

/-- The two ranges of R38 hold none of the map's registers. -/
theorem regAt_eq_reserved {off : Nat}
    (h : (0x24 ≤ off ∧ off ≤ 0x3C) ∨ (0x60 ≤ off ∧ off ≤ 0xFC)) : regAt off = .reserved := by
  rw [regAt] <;> omega

/-- Settles O38: the port expresses the access, and nothing is stored at a reserved offset. -/
theorem reservedOffsets : Obligations.ReservedOffsets := by
  unfold Obligations.ReservedOffsets
  intro s off w name halign hrange
  have hlt : off < 0x100 := by omega
  rw [s.serve_rd_offset hlt halign, s.serve_wr_offset hlt halign, regAt_eq_reserved hrange]
  exact ⟨rfl, rfl⟩

theorem State.intEnWord_writeReg_intEn (s : State) (w : Word) :
    (s.writeReg .intEn w).intEnWord = w &&& 1 :=
  BitVec.and_one_eq_setWidth_ofBool_getLsbD.symm

/-- Settles O40: IE is the one bit of `INT_EN` with storage. -/
theorem interruptEnableRegister : Obligations.InterruptEnableRegister := by
  unfold Obligations.InterruptEnableRegister
  intro s w name
  refine ⟨s.writeReg .intEn w, s.serve_wr_offset (by decide) (by decide) w, rfl, ?_⟩
  rw [← s.intEnWord_writeReg_intEn w]
  exact (s.writeReg .intEn w).serve_rd_offset (off := 0x08) (by decide) (by decide) name

end Sys2Proof.Machine
end

section
/-! PROOFS. The status register (10_state.md R25 to R29): its word is its fields side by side, and
only a `STATUS` write and reset let OVR fall. -/

namespace Sys2Proof.Machine

/-- The fields of `STATUS`, the top one first. The width stays a sum, the form in which the
library's lemmas on `++` see where each field ends. -/
theorem State.statusWord_eq_append (s : State) :
    s.statusWord = (0#24 ++ s.errcode ++ BitVec.ofBool s.ovr ++ BitVec.ofBool s.err ++
      BitVec.ofBool s.done ++ BitVec.ofBool s.busy : BitVec (24 + 4 + 1 + 1 + 1 + 1)) := by
  rw [← BitVec.setWidth_eq (_ ++ BitVec.ofBool s.busy)]
  simp only [setWidth_append_eq_or, BitVec.shiftLeft_or_distrib, ← BitVec.shiftLeft_add]
  simp only [State.statusWord, BitVec.setWidth_zero, BitVec.zero_shiftLeft, BitVec.zero_or,
    Nat.reduceAdd]
  ac_rfl

theorem State.statusWord_flags (s : State) :
    s.statusWord.getLsbD 0 = s.busy ∧ s.statusWord.getLsbD 1 = s.done ∧
      s.statusWord.getLsbD 2 = s.err ∧ s.statusWord.getLsbD 3 = s.ovr := by
  rw [s.statusWord_eq_append]
  simp only [BitVec.getLsbD_append]
  simp

theorem State.statusWord_errcode (s : State) : s.statusWord.extractLsb' 4 4 = s.errcode := by
  rw [s.statusWord_eq_append]
  simp (disch := decide) only [BitVec.extractLsb'_append_eq_of_le,
    BitVec.extractLsb'_append_eq_of_add_le, Nat.reduceSub, BitVec.extractLsb'_eq_self]

theorem State.statusWord_reserved (s : State) : s.statusWord.extractLsb' 8 24 = 0 := by
  rw [s.statusWord_eq_append]
  simp (disch := decide) only [BitVec.extractLsb'_append_eq_of_le, Nat.reduceSub,
    BitVec.extractLsb'_eq_self]
  rfl

/-- Settles O34: the invariant's report is what makes ERRCODE read 0 without a failure. -/
theorem statusReadsAndWrites : Obligations.StatusReadsAndWrites := by
  unfold Obligations.StatusReadsAndWrites
  intro s w
  obtain ⟨hbusy, hdone, herr, hovr⟩ := s.statusWord_flags
  refine ⟨⟨s.statusWord, s.serve_rd_status 0, hbusy, hdone, herr, hovr, s.statusWord_errcode,
    s.statusWord_reserved, fun hinv hno => ?_⟩, ?_⟩
  · rw [s.statusWord_errcode, hinv.report.codeZero hno]
  · rw [s.serve_wr_status]
    simp [State.writeStatus, Bool.and_comm]

/-- Acceptance keeps OVR (R82), and a write that is dropped sets it (R28). -/
@[simp] theorem State.writeCmd_ovr (s : State) (c : Word) :
    (s.writeCmd c).ovr = (s.busy || s.ovr) := by
  rw [State.writeCmd]
  cases s.busy with
  | true => rfl
  | false =>
    rw [if_neg Bool.noConfusion]
    rcases s.accept_cases c with ⟨_, -, h⟩ | ⟨_, -, h, -⟩ <;> rw [h] <;> rfl

theorem State.writeReg_clears_ovr {s : State} {r : Reg} {w : Word} (hset : s.ovr = true)
    (hclear : (s.writeReg r w).ovr = false) : r = .status ∧ w.getLsbD 3 = true := by
  cases r
  case cmd => simp [State.writeReg, hset] at hclear
  case status => exact ⟨rfl, by simpa [State.writeReg, hset] using hclear⟩
  all_goals exact absurd (hset.symm.trans hclear) Bool.noConfusion

/-- A host memory write reaches the memory and the hazard record (R240), nothing else. -/
theorem State.hostWrite_eq (s : State) (addr : Nat) (bytes : List Byte) :
    s.hostWrite addr bytes = { s with
      mem := s.mem.writeBytes addr bytes
      raceIn := (s.hostWrite addr bytes).raceIn
      raceOut := (s.hostWrite addr bytes).raceOut } := by
  rw [State.hostWrite, State.noteHostWrite]
  split <;> rfl

/-- A command leaves the host's side alone, whether it fails or succeeds. -/
theorem State.checked_sameHostSide (s : State) (i : Instr) :
    Claims.sameHostSide s (s.checked i (bodyOf i)) := by
  rcases s.checked_cases i (bodyOf i) with ⟨c, -, h⟩ | ⟨-, h⟩ <;> rw [h]
  · simp [Claims.sameHostSide]
  · simp [Claims.sameHostSide, bodyOf_fields]

/-- Of the host's operations only a `STATUS` write with bit 3 set lets OVR fall. -/
theorem State.serve_clears_ovr {s t : State} {op : HostOp} (h : s.serve op = .next t)
    (hset : s.ovr = true) (hclear : t.ovr = false) :
    ∃ w, op = .wr (s.params.regBase + 0x04) w ∧ w.getLsbD 3 = true := by
  rcases s.serve_cases h with ⟨addr, w, off, rfl, hoff, rfl⟩ | ⟨o, rfl⟩ | ⟨addr, bytes, rfl, -, rfl⟩
  · obtain ⟨hreg, hbit⟩ := State.writeReg_clears_ovr hset hclear
    obtain ⟨rfl, -⟩ := portOffset_eq_some.mp hoff
    exact ⟨w, by rw [eq_of_regAt_eq_status hreg], hbit⟩
  · exact absurd (hset.symm.trans hclear) Bool.noConfusion
  · rw [State.hostWrite_eq] at hclear
    exact absurd (hset.symm.trans hclear) Bool.noConfusion

/-- Settles O31: of all that can move in a step, only reset and the host let OVR fall. -/
theorem overrunIsDroppedAndSticky : Obligations.OverrunIsDroppedAndSticky := by
  unfold Obligations.OverrunIsDroppedAndSticky
  refine ⟨fun s c hrun => ?_, fun s w hbit => ⟨_, s.serve_wr_status w, by simp [hbit]⟩,
    State.applyReset_ovr, fun s t hstep hset hclear => ?_⟩
  · rw [s.serve_wr_cmd, State.writeCmd, if_pos (State.busy_eq_true.mpr hrun)]
  · rcases step_cases hstep with ⟨-, rest, rfl⟩ | ⟨op, rest, hev, hserve⟩ | ⟨rest, hev, -⟩ |
      ⟨-, i, rest, -, rfl⟩
    · exact absurd (hset.symm.trans hclear) Bool.noConfusion
    · obtain ⟨w, rfl, hbit⟩ := State.serve_clears_ovr hserve hset hclear
      exact .inr ⟨w, rest, hev, hbit⟩
    · exact .inl ⟨rest, hev⟩
    · obtain ⟨-, hovr, -⟩ := State.checked_sameHostSide { s with events := rest } i
      exact absurd (hset.symm.trans (hovr.symm.trans hclear)) Bool.noConfusion

end Sys2Proof.Machine
end

section
/-! PROOFS. The operand registers (10_state.md R39): a running command reads its latched operands
(R40), so it runs the same whatever the registers hold. -/

namespace Sys2Proof.Machine

/-- `s` with the operand registers of `t`. -/
def State.withOperands (s t : State) : State :=
  { s with
    srcAddr := t.srcAddr, srcLen := t.srcLen, keyAddr := t.keyAddr, keyLen := t.keyLen,
    dstAddr := t.dstAddr }

theorem State.withOperands_engine (s t : State) (e : Engine) :
    { s.withOperands t with engine := e } = State.withOperands { s with engine := e } t := rfl

theorem State.commitV_withOperands (s t : State) (v : Words8) :
    (s.withOperands t).commitV v = (s.commitV v).withOperands t := rfl

theorem State.commitOut_withOperands (s t : State) (out : List Byte) :
    (s.withOperands t).commitOut out = (s.commitOut out).withOperands t := by
  have hbytes := State.settledBytes_congr (s := s) (s' := s.withOperands t) rfl rfl rfl rfl
  rw [State.commitOut, hbytes]
  rfl

/-- What a body computes, it computes from the latched operands, the memory and the internal state:
once its commits are seen to pass the operand registers by, both sides are one state. -/
theorem bodyOf_withOperands (i : Instr) (s t : State) :
    bodyOf i (s.withOperands t) = (bodyOf i s).withOperands t := by
  cases i with
  | pad =>
    simp only [bodyOf, padBody]
    rw [State.withOperands_engine, State.commitOut_withOperands]
    rfl
  | expand =>
    simp only [bodyOf, expandBody]
    rw [State.withOperands_engine, State.commitOut_withOperands]
    rfl
  | init => rfl
  | compress => rfl
  | digest =>
    simp only [bodyOf, digestBody]
    rw [State.withOperands_engine, State.commitV_withOperands, State.commitOut_withOperands]
    rfl
  | hmac =>
    simp only [bodyOf, hmacBody]
    rw [State.withOperands_engine, State.commitV_withOperands, State.commitOut_withOperands]
    rfl

theorem State.checked_withOperands (i : Instr) (s t : State) :
    (s.withOperands t).checked i (bodyOf i) = (s.checked i (bodyOf i)).withOperands t := by
  have hcheck : commandError (s.withOperands t).params i (s.withOperands t).lat =
      commandError s.params i s.lat := rfl
  rw [State.checked, State.checked, hcheck]
  cases commandError s.params i s.lat with
  | some c => rfl
  | none => exact bodyOf_withOperands i s t

/-- The five operand registers (R31 to R35). -/
def Reg.isOperand (r : Reg) : Prop :=
  r = .srcAddr ∨ r = .srcLen ∨ r = .keyAddr ∨ r = .keyLen ∨ r = .dstAddr

/-- A write to an operand register touches no other field, and is read back. -/
theorem State.writeReg_operand {r : Reg} (h : r.isOperand) (s : State) (w : Word) :
    s.writeReg r w = s.withOperands (s.writeReg r w) ∧ (s.writeReg r w).readReg r = w := by
  rcases h with rfl | rfl | rfl | rfl | rfl <;> exact ⟨rfl, rfl⟩

theorem regAt_isOperand {off : Nat}
    (h : off = 0x10 ∨ off = 0x14 ∨ off = 0x18 ∨ off = 0x1C ∨ off = 0x20) :
    (regAt off).isOperand := by
  rcases h with rfl | rfl | rfl | rfl | rfl <;> simp [Reg.isOperand, regAt]

/-- Settles O37: the state after the write is the state before it with other operand registers, on
which no command's run depends. -/
theorem operandRegisters : Obligations.OperandRegisters := by
  unfold Obligations.OperandRegisters
  intro s w name
  refine ⟨fun off hoff => ?_, s.serve_wr_offset (by decide) (by decide) w,
    s.serve_wr_offset (by decide) (by decide) w, s.serve_wr_offset (by decide) (by decide) w,
    s.serve_wr_offset (by decide) (by decide) w, s.serve_wr_offset (by decide) (by decide) w⟩
  have hlt : off < 0x100 := by omega
  have halign : off % 4 = 0 := by omega
  obtain ⟨hframe, hread⟩ := State.writeReg_operand (regAt_isOperand hoff) s w
  refine ⟨s.writeReg (regAt off) w, s.serve_wr_offset hlt halign w, ?_, fun i => ?_⟩
  · have hparams : (s.writeReg (regAt off) w).params = s.params := by rw [hframe]; rfl
    rw [← hparams, State.serve_rd_offset _ hlt halign, hread]
  · refine ⟨_, exec_eq i s, ?_⟩
    rw [hframe, exec_eq, State.checked_withOperands]
    rfl

end Sys2Proof.Machine
end

section
/-! PROOFS. The frame of the commands (20_memory.md R69). The checks of `commandError` are read as
the claims' `rangesFit` and `bufferFits`: a command that fails them is aborted, and one that passes
them runs its body, which writes `outLength` bytes from `dst` up. -/

namespace Sys2Proof.Machine

open Sys2Proof.Claims

theorem bufferHolds_iff_capacityAdmits {p : Params} {n : Nat} :
    bufferHolds p n = true ↔ capacityAdmits p n := by
  cases h : p.padBuf <;> simp [bufferHolds, capacityAdmits, h]

theorem capacityAdmits_zero (p : Params) : capacityAdmits p 0 := fun c _ => Nat.zero_le c

theorem forall_checkedRanges_iff_rangesFit {i : Instr} {s : State} :
    (∀ r ∈ checkedRanges i s.lat, r.1.toNat + r.2 ≤ s.params.memBytes) ↔ rangesFit i s := by
  cases i <;> simp [checkedRanges, inputRanges, outputRanges, outLength, rangesFit]

theorem bufferHolds_iff_bufferFits {i : Instr} {s : State} :
    bufferHolds s.params (bufferNeed i s.lat) = true ↔ bufferFits i s := by
  rw [bufferHolds_iff_capacityAdmits]
  cases i <;> simp [bufferNeed, bufferFits, capacityAdmits_zero]

/-- The checks pass exactly when the ranges fit the memory and the need fits the buffer (R206). -/
theorem commandError_eq_none_iff_fits {i : Instr} {s : State} :
    commandError s.params i s.lat = none ↔ rangesFit i s ∧ bufferFits i s := by
  rw [commandError_eq_none, forall_checkedRanges_iff_rangesFit, bufferHolds_iff_bufferFits]

theorem State.checked_of_fits {i : Instr} {s : State} (act : State → State)
    (hranges : rangesFit i s) (hbuffer : bufferFits i s) : s.checked i act = act s := by
  rw [State.checked, commandError_eq_none_iff_fits.mpr ⟨hranges, hbuffer⟩]

theorem State.checked_of_not_fits {i : Instr} {s : State} (act : State → State)
    (h : ¬(rangesFit i s ∧ bufferFits i s)) : ∃ c, s.checked i act = s.abort c := by
  obtain ⟨c, -, hc⟩ | ⟨hnone, -⟩ := s.checked_cases i act
  · exact ⟨c, hc⟩
  · exact absurd (commandError_eq_none_iff_fits.mp hnone) h

theorem outLength_eq_bytesWritten (i : Instr) (s : State) :
    outLength i s.lat = bytesWritten i s := by
  cases i <;> rfl

/-- A body changes no byte outside the destination range, raced or not: what settles there has the
length of the output. -/
theorem bodyOf_read_other {i : Instr} {s : State} {a : Nat} (h : ¬isDestination i s a) :
    (bodyOf i s).mem.read a = s.mem.read a := by
  obtain ⟨out, hlen, hmem⟩ := bodyOf_mem i s
  rw [hmem]
  refine Memory.read_writeBytes_other _ _ ?_
  rwa [State.settledBytes_length, hlen, outLength_eq_bytesWritten]

/-- Settles O13: the checks either abort the command, which touches the report alone, or let its
body run, whose frame is `bodyOf_fields`, `bodyOf_v` and `bodyOf_read_other`. -/
theorem commandFrame : Obligations.CommandFrame := by
  unfold Obligations.CommandFrame
  intro i s
  refine ⟨_, exec_eq i s, s.checked_sameHostSide i, ?_⟩
  by_cases hfits : rangesFit i s ∧ bufferFits i s
  case neg =>
    obtain ⟨c, habort⟩ := State.checked_of_not_fits (bodyOf i) hfits
    rw [habort]
    exact ⟨fun _ => s.abort_v c, fun _ _ => by rw [s.abort_mem c],
      fun _ => ⟨s.abort_mem c, s.abort_v c⟩,
      fun hranges hbuffer => absurd ⟨hranges, hbuffer⟩ hfits, fun _ => s.abort_done c⟩
  case pos =>
    rw [State.checked_of_fits (bodyOf i) hfits.1 hfits.2]
    obtain ⟨-, -, -, herr, -, herrcode, -⟩ := bodyOf_fields i s
    exact ⟨fun hi => bodyOf_v hi s, fun _ => bodyOf_read_other,
      fun hnot => absurd hfits hnot, fun _ _ => ⟨herr, herrcode⟩, fun hnot => absurd hfits hnot⟩

end Sys2Proof.Machine
end

section
/-! PROOFS. The decoder (30_encoding.md R81, R84, R85) and acceptance (R82): a word is its two
fields side by side, and the decoder answers a command for exactly the word that encodes it. -/

namespace Sys2Proof.Machine

/-- The two fields of a command word are all of it (R81). -/
theorem rsvField_append_opField (c : Word) : rsvField c ++ opField c = c := by
  rw [rsvField, opField, BitVec.extractLsb'_append_extractLsb'_eq_extractLsb' (by rfl)]
  exact BitVec.extractLsb'_eq_self

theorem toNat_eq_fields (c : Word) : c.toNat = (rsvField c).toNat * 16 + (opField c).toNat := by
  conv => lhs; rw [← rsvField_append_opField c]
  exact toNat_append_eq_add _ _

theorem rsvField_eq_zero {c : Word} : rsvField c = 0 ↔ c.toNat < 16 := by
  have hfields := toNat_eq_fields c
  have hop := (opField c).isLt
  have hzero : (0 : BitVec 28).toNat = 0 := rfl
  rw [BitVec.toNat_eq, hzero]
  omega

theorem toNat_encode (i : Instr) : (encode i).toNat = (opcodeOf i).toNat :=
  BitVec.toNat_setWidth_of_le (by decide)

/-- The opcode map read from right to left (R84). -/
theorem decodeOpcode_opcodeOf (i : Instr) : decodeOpcode (opcodeOf i) = some i := by
  cases i <;> rfl

/-- The opcode map read from left to right (R84): no two opcodes name one command. -/
theorem decodeOpcode_eq_some {op : BitVec 4} {i : Instr} :
    decodeOpcode op = some i ↔ op = opcodeOf i := by
  refine ⟨fun h => ?_, fun h => h ▸ decodeOpcode_opcodeOf i⟩
  unfold decodeOpcode at h
  split at h <;> cases h <;> exact BitVec.eq_of_toNat_eq ‹_›

/-- The reserved opcodes (R85), read off the 16 values of the field. -/
theorem decodeOpcode_eq_none {op : BitVec 4} :
    decodeOpcode op = none ↔ op.toNat < 1 ∨ 6 < op.toNat := by
  revert op
  decide

theorem decode_eq_ok {c : Word} {i : Instr} :
    decode c = .ok i ↔ rsvField c = 0 ∧ opField c = opcodeOf i := by
  rw [← decodeOpcode_eq_some, decode]
  split
  case isTrue hrsv => exact iff_of_false nofun fun ⟨hzero, _⟩ => hrsv hzero
  case isFalse hrsv => cases decodeOpcode (opField c) <;> simp [Decidable.of_not_not hrsv]

/-- The decoder answers a command for exactly the word that encodes it. -/
theorem decode_eq_ok_iff_eq_encode {c : Word} {i : Instr} : decode c = .ok i ↔ c = encode i := by
  have hfields := toNat_eq_fields c
  have hop := (opcodeOf i).isLt
  rw [decode_eq_ok, rsvField_eq_zero, BitVec.toNat_eq, BitVec.toNat_eq, toNat_encode]
  omega

/-- The illegal words (R82, R85). -/
theorem exists_decode_eq_error {c : Word} :
    (∃ e, decode c = .error e) ↔
      rsvField c ≠ 0 ∨ (opField c).toNat < 1 ∨ 6 < (opField c).toNat := by
  rw [← decodeOpcode_eq_none, decode]
  split
  case isTrue hrsv => exact iff_of_true ⟨_, rfl⟩ (.inl hrsv)
  case isFalse hrsv => cases decodeOpcode (opField c) <;> simp [Decidable.of_not_not hrsv]

/-- Settles O1: each command's clause is its word, and the illegal words are those whose fields
are out of the map, read here as one number. -/
theorem opcodeMapOnEveryWord : Obligations.OpcodeMapOnEveryWord := by
  unfold Obligations.OpcodeMapOnEveryWord
  intro c
  refine ⟨decode_eq_ok_iff_eq_encode, decode_eq_ok_iff_eq_encode, decode_eq_ok_iff_eq_encode,
    decode_eq_ok_iff_eq_encode, decode_eq_ok_iff_eq_encode, decode_eq_ok_iff_eq_encode, ?_⟩
  have hfields := toNat_eq_fields c
  rw [exists_decode_eq_error, Ne, rsvField_eq_zero]
  omega

theorem State.serve_wr_cmd_idle {s : State} (hidle : s.phase = .idle) (c : Word) :
    s.serve (.wr s.params.regBase c) = .next (s.accept c) := by
  rw [s.serve_wr_cmd, State.writeCmd, State.busy_eq_false.mpr hidle, if_neg Bool.noConfusion]

/-- A rejection while idle reaches the report and OUT_LEN, nothing else (R82). -/
theorem State.clearReport_raise_illegalCmd {s : State} (hidle : s.phase = .idle) :
    s.clearReport.raise .illegalCmd =
      { s with done := false, err := true, errcode := 1, outLen := 0 } := by
  rw [State.raise, ← hidle]
  rfl

/-- Settles O30: the two kinds of words are the two cases of acceptance. -/
theorem acceptanceOfCommandWord : Obligations.AcceptanceOfCommandWord := by
  unfold Obligations.AcceptanceOfCommandWord
  intro s c hidle
  rw [State.serve_wr_cmd_idle hidle]
  rcases s.accept_cases c with ⟨e, herror, haccept⟩ | ⟨i, hok, haccept, -⟩ <;> rw [haccept]
  · rw [State.clearReport_raise_illegalCmd hidle]
    refine ⟨fun _ => rfl, fun hrsv hlow hhigh => ?_⟩
    rcases exists_decode_eq_error.mp ⟨e, herror⟩ with h | h | h
    · exact absurd hrsv h
    · exact absurd hlow (Nat.not_le.mpr h)
    · exact absurd hhigh (Nat.not_le.mpr h)
  · refine ⟨fun hillegal => ?_, fun _ _ _ => rfl⟩
    obtain ⟨e, herror⟩ := exists_decode_eq_error.mpr hillegal
    cases hok.symm.trans herror

end Sys2Proof.Machine
end

section
/-! PROOFS. The padder (40_padder.md R101 to R103): a padded string is the message, the byte 0x80,
the zero bytes and the two words of the bit length, side by side. -/

namespace Sys2Proof.Machine

theorem padLen_eq (n : Nat) : padLen n = 64 * ((n + 8) / 64 + 1) := by
  simp only [padLen, padZeroBits]
  split <;> omega

/-- The zero bytes are what the message, 0x80 and the length field leave of `PadLen`. -/
theorem padZeroBytes_eq (n : Nat) : (padZeroBits n - 7) / 8 = padLen n - (n + 9) := by
  rw [padLen_eq, padZeroBits]
  split <;> omega

/-- R103: the marker byte and the length field always fit, and at most one block is added past
them. -/
theorem padLen_bounds (n : Nat) : n + 9 ≤ padLen n ∧ padLen n ≤ n + 72 := by
  rw [padLen_eq]
  omega

/-- Settles O23: the closed form carries the bounds. -/
theorem paddedLength : Obligations.PaddedLength := by
  unfold Obligations.PaddedLength
  refine ⟨pad_length, fun n => ⟨padLen_eq n, ?_, padLen_bounds n⟩⟩
  rw [padLen_eq]
  exact Nat.mul_mod_right ..

/-- The bit length of an `n`-byte message, cut into its two words. It is taken mod 2^64 on both
sides, so the length needs no bound. -/
theorem bitLength_eq_append (n : Nat) :
    BitVec.ofNat 64 (8 * n) = BitVec.ofNat 32 (n >>> 29) ++ BitVec.ofNat 32 (8 * n % 2 ^ 32) := by
  apply BitVec.eq_of_toNat_eq
  rw [toNat_append_eq_add]
  simp only [BitVec.toNat_ofNat, Nat.shiftRight_eq_div_pow]
  omega

/-- What stands before the length field: the message, 0x80 and the zero bytes (R102). -/
def padFront (m : List Byte) : List Byte :=
  m ++ ([0x80] ++ List.replicate (padLen m.length - (m.length + 9)) 0)

theorem padFront_length (m : List Byte) : (padFront m).length = padLen m.length - 8 := by
  have hfits := (padLen_bounds m.length).1
  simp only [padFront, List.length_append, List.length_singleton, List.length_replicate]
  omega

theorem pad_eq_fields (m : List Byte) :
    pad m = padFront m ++ be32Bytes (BitVec.ofNat 32 (m.length >>> 29)) ++
      be32Bytes (BitVec.ofNat 32 (8 * m.length % 2 ^ 32)) := by
  rw [pad, padZeroBytes_eq, bitLength_eq_append, be64Bytes_append, padFront, List.append_assoc m,
    ← List.append_assoc]

/-- Below the length field the padded string is its front. -/
theorem pad_getElem?_front (m : List Byte) {k : Nat} (hk : k < padLen m.length - 8) :
    (pad m)[k]? = (padFront m)[k]? := by
  rw [pad_eq_fields, List.append_assoc, List.getElem?_append_left]
  rwa [padFront_length]

theorem pad_getElem?_marker (m : List Byte) : (pad m)[m.length]? = some 0x80 := by
  have hfits := (padLen_bounds m.length).1
  rw [pad_getElem?_front m (by omega), padFront, List.getElem?_append_right (Nat.le_refl _),
    Nat.sub_self]
  rfl

theorem pad_getElem?_zero (m : List Byte) {k : Nat} (hlow : m.length + 1 ≤ k)
    (hhigh : k < padLen m.length - 8) : (pad m)[k]? = some 0x00 := by
  have hfits := (padLen_bounds m.length).1
  rw [pad_getElem?_front m hhigh, padFront, List.getElem?_append_right (by omega),
    List.getElem?_append_right (by rw [List.length_singleton]; omega),
    List.getElem?_replicate_of_lt (by rw [List.length_singleton]; omega)]

/-- A field is the slice at the length of what stands before it. -/
theorem slice_append_field (pre field post : List Byte) {i n : Nat} (hi : i = pre.length)
    (hn : n = field.length) : slice (pre ++ field ++ post) i n = field := by
  rw [slice, hi, hn, List.append_assoc, List.drop_left, List.take_left]

/-- Settles O24: each row is one field, at the length of the fields before it. No row needs
the bound on the length. -/
theorem paddedLayout : Obligations.PaddedLayout := by
  unfold Obligations.PaddedLayout
  intro m _
  refine ⟨?_, ?_, fun k hlow hhigh => ?_, ?_, ?_⟩
  · rw [pad_eq_fields, padFront, List.append_assoc, List.append_assoc]
    exact slice_append_field [] m _ rfl rfl
  · rw [List.getD_eq_getElem?_getD, pad_getElem?_marker, Option.getD_some]
  · rw [List.getD_eq_getElem?_getD, pad_getElem?_zero m hlow hhigh, Option.getD_some]
  · rw [pad_eq_fields]
    exact slice_append_field _ _ _ (padFront_length m).symm rfl
  · have hfits := (padLen_bounds m.length).1
    rw [pad_eq_fields, ← List.append_nil (_ ++ _)]
    refine slice_append_field _ _ _ ?_ rfl
    rw [List.length_append, padFront_length, be32Bytes_length]
    omega

end Sys2Proof.Machine
end

section
/-! PROOFS. The outcome of a command (60_exceptions.md R203, R204, R206): every command fails by one
abort, RANGE before ALLOC, and succeeds by one completion. -/

namespace Sys2Proof.Machine

open Sys2Proof.Claims

theorem commandError_of_not_rangesFit {i : Instr} {s : State} (h : ¬rangesFit i s) :
    commandError s.params i s.lat = some .range := by
  rw [← forall_checkedRanges_iff_rangesFit] at h
  cases herror : commandError s.params i s.lat with
  | none => exact absurd (commandError_eq_none.mp herror).1 h
  | some c =>
    obtain ⟨rfl, -⟩ | ⟨-, hranges, -⟩ := commandError_eq_some herror
    · rfl
    · exact absurd hranges h

theorem commandError_of_not_bufferFits {i : Instr} {s : State} (hranges : rangesFit i s)
    (h : ¬bufferFits i s) : commandError s.params i s.lat = some .alloc := by
  cases herror : commandError s.params i s.lat with
  | none => exact absurd (commandError_eq_none_iff_fits.mp herror).2 h
  | some c =>
    obtain ⟨-, r, hr, hout⟩ | ⟨rfl, -⟩ := commandError_eq_some herror
    · have hin := forall_checkedRanges_iff_rangesFit.mpr hranges r hr
      exact absurd hout (Nat.not_lt.mpr hin)
    · rfl

theorem exec_endsAs_failedWith {i : Instr} {s : State} {c : ErrCause}
    (h : commandError s.params i s.lat = some c) :
    endsAs (exec i s) (failedWith s c.code) := by
  rw [exec_eq, State.checked, h]
  exact ⟨_, _, _, rfl⟩

/-- Every command fails as R206 says: its order is the order of `commandError`. -/
theorem exec_failsAsStated (i : Instr) (s : State) : failsAsStated i s :=
  ⟨fun h => exec_endsAs_failedWith (commandError_of_not_rangesFit h),
    fun hranges h => exec_endsAs_failedWith (commandError_of_not_bufferFits hranges h)⟩

theorem exec_of_fits {i : Instr} {s : State} (hranges : rangesFit i s)
    (hbuffer : bufferFits i s) : exec i s = .next (bodyOf i s) := by
  rw [exec_eq, State.checked_of_fits (bodyOf i) hranges hbuffer]

theorem outLenValue_of_lt {n : Nat} (h : n < 2 ^ 32) (d : Nat) :
    outLenValue n d = BitVec.ofNat 32 n := if_pos h

/-- An unraced command that leaves `e` in the internal state and commits `out` (R203): of `e` the
outcome keeps nothing. -/
theorem commitOut_complete_endsAs {s : State} (h : unraced s) (e : Engine) (out : List Byte)
    (n : Nat) :
    endsAs (.next ((State.commitOut { s with engine := e } out).complete n))
      (doneWith { s with mem := s.mem.writeBytes s.lat.dst.toNat out }
        (outLenValue n s.draws)) := by
  obtain ⟨hin, hout⟩ := h
  rw [State.commitOut_of_no_race (s := { s with engine := e }) hin hout]
  exact ⟨_, _, _, rfl⟩

end Sys2Proof.Machine
end

section
/-! PROOFS. The expander (41_expander.md R120 to R122): the words are made in increasing order and
never changed again, so each of them is `nextW` of the words that stand before it in the end. -/

namespace Sys2Proof.Machine

open Sys2Proof.Claims

theorem Engine.fillExpansion_w (e : Engine) (blk : List Byte) :
    (e.fillExpansion blk).w = (expand blk).1 := rfl

theorem Engine.fillExpansion_wp (e : Engine) (blk : List Byte) :
    (e.fillExpansion blk).wp = (expand blk).2 := rfl

/-- EXPAND commits the two arrays of its block as the bytes of their words (R122). -/
theorem expandBody_eq (s : State) :
    expandBody s =
      (State.commitOut { s with engine := s.engine.fillExpansion (block s) }
        (wordsBytes (expand (block s)).1 ++ wordsBytes (expand (block s)).2)).complete 528 := by
  rw [expandBody, Engine.fillExpansion_w, Engine.fillExpansion_wp, block, outLength]

/-- Settles O8: it fails as every command does, and completes on the bytes it commits. -/
theorem expandWritesBothArrays : Obligations.ExpandWritesBothArrays := by
  unfold Obligations.ExpandWritesBothArrays
  refine ⟨decode_eq_ok_iff_eq_encode.mpr rfl, fun s => ⟨exec_failsAsStated .expand s,
    fun hranges hunraced => ?_⟩⟩
  have hends := commitOut_complete_endsAs hunraced (s.engine.fillExpansion (block s))
    (wordsBytes (expand (block s)).1 ++ wordsBytes (expand (block s)).2) 528
  rw [outLenValue_of_lt (by decide)] at hends
  rwa [exec_of_fits hranges trivial, bodyOf, expandBody_eq]

theorem prefix_extendW (n : Nat) (ws : List Word) : ws <+: extendW n ws := by
  induction n generalizing ws with
  | zero => exact List.prefix_rfl
  | succ n ih => exact (List.prefix_append ws _).trans (ih _)

/-- `extendW` appends `nextW` of the words so far, and what it appends after that leaves them as
they are. -/
theorem getElem?_extendW {n j : Nat} {ws : List Word} (hlow : ws.length ≤ j)
    (hhigh : j < ws.length + n) : (extendW n ws)[j]? = some (nextW ((extendW n ws).take j)) := by
  induction n generalizing ws with
  | zero => omega
  | succ n ih =>
    rcases Nat.eq_or_lt_of_le hlow with rfl | hlater
    · obtain ⟨rest, hrest⟩ := prefix_extendW n (ws ++ [nextW ws])
      rw [extendW, ← hrest, List.append_assoc, List.take_left,
        List.getElem?_append_right (Nat.le_refl _), Nat.sub_self]
      rfl
    · have hlength : (ws ++ [nextW ws]).length = ws.length + 1 := List.length_append
      exact ih (by omega) (by omega)

theorem getD_take_of_lt (ws : List Word) {j k : Nat} (h : k < j) :
    (ws.take j).getD k 0 = ws.getD k 0 := by
  rw [List.getD_eq_getElem?_getD, List.getElem?_take_of_lt h, List.getD_eq_getElem?_getD]

/-- The recurrence of R120, read in the whole array: it reaches back to smaller indices only. -/
theorem nextW_take {ws : List Word} {j : Nat} (hlow : 16 ≤ j) (hhigh : j ≤ ws.length) :
    nextW (ws.take j) =
      p1 (ws.getD (j - 16) 0 ^^^ ws.getD (j - 9) 0 ^^^ rotl (ws.getD (j - 3) 0) 15)
        ^^^ rotl (ws.getD (j - 13) 0) 7 ^^^ ws.getD (j - 6) 0 := by
  simp (disch := omega) only [nextW, List.length_take_of_le hhigh, getD_take_of_lt]

theorem expandW_getD_of_lt (blk : List Byte) {i : Nat} (h : i < 16) :
    (expandW blk).getD i 0 = be32 (slice blk (4 * i) 4) := by
  obtain ⟨rest, hrest⟩ := prefix_extendW 52 (blockWords blk)
  rw [List.getD_eq_getElem?_getD, expandW, ← hrest,
    List.getElem?_append_left (by rwa [blockWords_length]), blockWords, List.getElem?_map,
    List.getElem?_range h, Option.map_some, Option.getD_some]

theorem expandW_getD_of_ge (blk : List Byte) {j : Nat} (hlow : 16 ≤ j) (hhigh : j < 68) :
    (expandW blk).getD j 0 = nextW ((expandW blk).take j) := by
  have hlength := blockWords_length blk
  rw [List.getD_eq_getElem?_getD, expandW, getElem?_extendW (by omega) (by omega),
    Option.getD_some]

theorem expandWp_getD (w : List Word) {j : Nat} (h : j < 64) :
    (expandWp w).getD j 0 = w.getD j 0 ^^^ w.getD (j + 4) 0 := by
  rw [List.getD_eq_getElem?_getD, expandWp, List.getElem?_map, List.getElem?_range h,
    Option.map_some, Option.getD_some]

/-- Settles O25: each array is read off its own definition, and `nextW` reads the array itself. -/
theorem expansionSatisfiesRecurrence : Obligations.ExpansionSatisfiesRecurrence := by
  unfold Obligations.ExpansionSatisfiesRecurrence
  intro blk
  refine ⟨expandW_length blk, expandWp_length _, fun i => expandW_getD_of_lt blk,
    fun j hlow hhigh => ?_, fun j => expandWp_getD _⟩
  rw [expand, expandW_getD_of_ge blk hlow hhigh,
    nextW_take hlow (by rw [expandW_length]; omega)]

end Sys2Proof.Machine
end

section
/-! PROOFS. The compression function (42_compression.md R142, R146) and its two commands (R150,
R151): the rounds the engine runs on its working registers are the rounds of `CF`, so COMPRESS
commits `CF(V, blk)`. -/

namespace Sys2Proof.Machine

open Sys2Proof.Claims

/-- The majority of three bits, as R142 writes it. -/
theorem majority_eq_decide_two_le (x y z : Bool) :
    (x && y || x && z || y && z) = decide (2 ≤ x.toNat + y.toNat + z.toNat) := by
  revert x y z
  decide

/-- The choice between two bits, as R142 writes it. -/
theorem choice_eq_ite (x y z : Bool) : (x && y || !x && z) = if x then y else z := by
  cases x <;> simp

theorem getLsbD_ff_of_lt {j : Nat} (hj : j < 16) (x y z : Word) (k : Nat) :
    (ff j x y z).getLsbD k = ((x.getLsbD k ^^ y.getLsbD k) ^^ z.getLsbD k) := by
  rw [ff, if_pos hj, BitVec.getLsbD_xor, BitVec.getLsbD_xor]

theorem gg_eq_ff_of_lt {j : Nat} (hj : j < 16) (x y z : Word) : gg j x y z = ff j x y z := by
  rw [gg, ff, if_pos hj, if_pos hj]

theorem getLsbD_ff_of_ge {j : Nat} (hj : 16 ≤ j) (x y z : Word) (k : Nat) :
    (ff j x y z).getLsbD k =
      decide (2 ≤ (x.getLsbD k).toNat + (y.getLsbD k).toNat + (z.getLsbD k).toNat) := by
  rw [ff, if_neg (Nat.not_lt.mpr hj)]
  simp only [BitVec.getLsbD_or, BitVec.getLsbD_and, majority_eq_decide_two_le]

/-- The complement in `GG` needs the bit to be one of the word's. -/
theorem getLsbD_gg_of_ge {j k : Nat} (hj : 16 ≤ j) (hk : k < 32) (x y z : Word) :
    (gg j x y z).getLsbD k = if x.getLsbD k then y.getLsbD k else z.getLsbD k := by
  rw [gg, if_neg (Nat.not_lt.mpr hj)]
  simp only [BitVec.getLsbD_or, BitVec.getLsbD_and, BitVec.getLsbD_not, hk, decide_true,
    Bool.true_and, choice_eq_ite]

/-- Settles O26: on one bit, the two formulas of R142 are parity below round 16, and from there on
majority and choice. -/
theorem booleanFunctionsBitByBit : Obligations.BooleanFunctionsBitByBit := by
  unfold Obligations.BooleanFunctionsBitByBit
  intro j k x y z hk
  exact ⟨fun hj => ⟨getLsbD_ff_of_lt hj x y z k, gg_eq_ff_of_lt hj x y z⟩,
    fun hj => ⟨getLsbD_ff_of_ge hj x y z k, getLsbD_gg_of_ge hj hk x y z⟩⟩

/-- A round writes neither expansion array, so every later round reads the words of the first. -/
theorem Engine.foldRounds_work (l : List Nat) (e : Engine) :
    (l.foldl Engine.runRound e).work =
      l.foldl (fun r j => sm3Round j (e.w.getD j 0) (e.wp.getD j 0) r) e.work := by
  induction l generalizing e with
  | nil => rfl
  | cons j l ih => exact ih (e.runRound j)

theorem Engine.runRounds_work (e : Engine) : e.runRounds.work = rounds e.w e.wp e.work :=
  e.foldRounds_work (List.range 64)

/-- The engine computes `CF`, whatever its internal state was (R146). -/
theorem Engine.compress_eq_cf (e : Engine) (v : Words8) (blk : List Byte) :
    (e.compress v blk).1 = cf v blk := by
  simp only [Engine.compress, Engine.runRounds_work, Engine.fillExpansion, expand, cf]

/-- Completion (R203) from any internal state: of `e` the outcome keeps nothing. -/
theorem complete_endsAs (s : State) (e : Engine) {n : Nat} (h : n < 2 ^ 32) :
    endsAs (.next (State.complete { s with engine := e } n)) (doneWith s (BitVec.ofNat 32 n)) := by
  rw [← outLenValue_of_lt h s.draws]
  exact ⟨_, _, _, rfl⟩

/-- An unraced command that commits `v` and writes no output (R203, R240). -/
theorem commitV_complete_endsAs {s : State} (h : unraced s) (e : Engine) (v : Words8) {n : Nat}
    (hn : n < 2 ^ 32) :
    endsAs (.next ((State.commitV { s with engine := e } v).complete n))
      (doneWith { s with v := v } (BitVec.ofNat 32 n)) := by
  rw [State.commitV_of_no_race (s := { s with engine := e }) h.1]
  exact complete_endsAs { s with v := v } e hn

/-- COMPRESS commits `CF(V, blk)` and completes with no output (R151). -/
theorem compressBody_eq (s : State) :
    compressBody s =
      (State.commitV { s with engine := (s.engine.compress s.v (block s)).2 }
        (cf s.v (block s))).complete 0 := by
  simp only [compressBody, Engine.compress_eq_cf, block, outLength]

/-- Settles O10: it fails as every command does, and completes on the words it commits. -/
theorem compressFoldsBlock : Obligations.CompressFoldsBlock := by
  unfold Obligations.CompressFoldsBlock
  refine ⟨decode_eq_ok_iff_eq_encode.mpr rfl, fun s => ⟨exec_failsAsStated .compress s,
    fun hranges hunraced => ?_⟩⟩
  rw [exec_of_fits hranges trivial, bodyOf, compressBody_eq]
  exact commitV_complete_endsAs hunraced _ _ (by decide)

/-- Settles O9: INIT has no range and no buffer to fail on. -/
theorem initSetsChainingWords : Obligations.InitSetsChainingWords := by
  unfold Obligations.InitSetsChainingWords
  refine ⟨decode_eq_ok_iff_eq_encode.mpr rfl, fun s => ?_⟩
  rw [exec_of_fits (i := .init) trivial trivial, bodyOf, initBody, outLength]
  exact complete_endsAs { s with v := iv } s.engine (by decide)

end Sys2Proof.Machine
end

section
/-! PROOFS. The digest driver (43_digest_driver.md R170 to R176) and its two commands (R180, R181):
the block loop folds the blocks of the padded buffer, which no compression writes, and the two stages
of HMAC hand the outer pad and the inner digest on in the HMAC context, which no digest writes. -/

namespace Sys2Proof.Machine

open Sys2Proof.Claims

theorem Engine.blockStep_fst (ve : Words8 × Engine) (b : Nat) :
    (Engine.blockStep ve b).1 = cf ve.1 (blockOf ve.2.pb b) :=
  Engine.compress_eq_cf _ _ _

/-- No turn of the loop writes the padded buffer, so every turn reads the blocks of the first. -/
theorem Engine.foldBlocks_fst (l : List Nat) (ve : Words8 × Engine) :
    (l.foldl Engine.blockStep ve).1 = l.foldl (fun v b => cf v (blockOf ve.2.pb b)) ve.1 := by
  induction l generalizing ve with
  | nil => rfl
  | cons b l ih =>
    obtain ⟨hpb, -⟩ := Engine.blockStep_sameBuffers ve b
    rw [List.foldl_cons, ih, hpb, Engine.blockStep_fst, List.foldl_cons]

/-- The engine computes `DigestState`, whatever its internal state was (R170). -/
theorem Engine.digest_fst (e : Engine) (m : List Byte) : (e.digest m).1 = digestState m :=
  Engine.foldBlocks_fst _ _

theorem Engine.loadKey_key (e : Engine) (key : List Byte) :
    (e.loadKey key).key = effectiveKey key := by
  rw [Engine.loadKey, effectiveKey]
  split
  · exact congrArg ser (e.digest_fst key)
  · rfl

theorem Engine.innerStage_inner (e : Engine) (m : List Byte) :
    (e.innerStage m).inner = Machine.digest (e.ipad ++ m) :=
  congrArg ser (e.digest_fst (e.ipad ++ m))

theorem Engine.innerStage_opad (e : Engine) (m : List Byte) : (e.innerStage m).opad = e.opad := by
  obtain ⟨-, -, hopad, -⟩ := e.digest_sameContext (e.ipad ++ m)
  exact hopad

/-- The engine computes `HmacState`, whatever its internal state was (R175). -/
theorem Engine.hmac_fst (e : Engine) (key m : List Byte) :
    (e.hmac key m).1 = hmacState key m := by
  rw [Engine.hmac, Engine.digest_fst, Engine.innerStage_opad, Engine.innerStage_inner,
    Engine.loadPads, Engine.loadKey_key, hmacState, hmacInner]

/-- An unraced command that commits `v` and the output `out` (R203, R240). -/
theorem commitV_commitOut_complete_endsAs {s : State} (h : unraced s) (e : Engine) (v : Words8)
    (out : List Byte) {n : Nat} (hn : n < 2 ^ 32) :
    endsAs (.next (((State.commitV { s with engine := e } v).commitOut out).complete n))
      (doneWith { s with v := v, mem := s.mem.writeBytes s.lat.dst.toNat out }
        (BitVec.ofNat 32 n)) := by
  rw [State.commitV_of_no_race (s := { s with engine := e }) h.1, ← outLenValue_of_lt hn s.draws]
  exact commitOut_complete_endsAs (s := { s with v := v }) h e out n

/-- DIGEST commits the state of the digest, and the same words as bytes (R180). -/
theorem digestBody_eq (s : State) :
    digestBody s =
      ((State.commitV { s with engine := (s.engine.digest (message s)).2 }
        (digestState (message s))).commitOut (ser (digestState (message s)))).complete 32 := by
  simp only [digestBody, Engine.digest_fst, message, outLength]

/-- HMAC commits the state of the outer digest, and the MAC, which is the same words as bytes
(R181). -/
theorem hmacBody_eq (s : State) :
    hmacBody s =
      ((State.commitV { s with engine := (s.engine.hmac (keyBytes s) (message s)).2 }
        (hmacState (keyBytes s) (message s))).commitOut
          (hmac (keyBytes s) (message s))).complete 32 := by
  simp only [hmacBody, Engine.hmac_fst, keyBytes, message, outLength, hmac]

/-- Settles O11: it fails as every command does, and completes on what it commits. -/
theorem digestHashesMessage : Obligations.DigestHashesMessage := by
  unfold Obligations.DigestHashesMessage
  refine ⟨decode_eq_ok_iff_eq_encode.mpr rfl, fun s => ⟨exec_failsAsStated .digest s,
    fun hranges hbuffer hunraced => ?_⟩⟩
  rw [exec_of_fits hranges hbuffer, bodyOf, digestBody_eq]
  exact commitV_commitOut_complete_endsAs hunraced _ _ _ (by decide)

/-- Settles O12: as for DIGEST; the key is read as the message is, before anything is written. -/
theorem hmacAuthenticatesMessage : Obligations.HmacAuthenticatesMessage := by
  unfold Obligations.HmacAuthenticatesMessage
  refine ⟨decode_eq_ok_iff_eq_encode.mpr rfl, fun s => ⟨exec_failsAsStated .hmac s,
    fun hranges hbuffer hunraced => ?_⟩⟩
  rw [exec_of_fits hranges hbuffer, bodyOf, hmacBody_eq]
  exact commitV_commitOut_complete_endsAs hunraced _ _ _ (by decide)

end Sys2Proof.Machine
end

section
/-! PROOFS. The interrupt output (60_exceptions.md R210): it is read off IE, DONE and ERR, so each
operation says by these three what it leaves of it. -/

namespace Sys2Proof.Machine

theorem State.irq_eq_true {s : State} :
    s.irq = true ↔ s.ie = true ∧ (s.done = true ∨ s.err = true) := by
  rw [State.irq, Bool.and_eq_true, Bool.or_eq_true]

/-- A command ends with ERR or with DONE, so its end shows at the output exactly when IE = 1. -/
theorem State.checked_irq (s : State) (i : Instr) : (s.checked i (bodyOf i)).irq = s.ie := by
  rcases s.checked_cases i (bodyOf i) with ⟨c, -, hfail⟩ | ⟨-, hsucceed⟩
  · rw [hfail, State.irq, State.abort_ie, State.abort_err, Bool.or_true, Bool.and_true]
  · obtain ⟨-, -, hdone, -, -, -, hie, -⟩ := bodyOf_fields i s
    rw [hsucceed, State.irq, hie, hdone, Bool.true_or, Bool.and_true]

/-- Acceptance clears the report (R82), and only a rejection sets ERR again. -/
theorem State.accept_irq (s : State) (c : Word) :
    (s.accept c).irq = (s.ie && !(decide (1 ≤ c.toNat) && decide (c.toNat ≤ 6))) := by
  obtain ⟨-, -, -, -, -, -, hillegal⟩ := opcodeMapOnEveryWord c
  rw [← Bool.decide_and, ← decide_not]
  rcases s.accept_cases c with ⟨e, herror, haccept⟩ | ⟨i, hok, haccept, -⟩ <;> rw [haccept]
  · have hword := hillegal.mp ⟨e, herror⟩
    rw [decide_eq_true (show ¬(1 ≤ c.toNat ∧ c.toNat ≤ 6) by omega)]
    simp [State.irq]
  · have hword : ¬(c.toNat = 0 ∨ 7 ≤ c.toNat) := fun h => by
      obtain ⟨e, herror⟩ := hillegal.mpr h
      cases hok.symm.trans herror
    rw [decide_eq_false (show ¬¬(1 ≤ c.toNat ∧ c.toNat ≤ 6) by omega)]
    simp [State.irq]

theorem State.writeStatus_irq {s : State} {w : Word} (hdone : w.getLsbD 1 = true)
    (herr : w.getLsbD 2 = true) : (s.writeStatus w).irq = false := by
  simp [State.irq, hdone, herr]

theorem State.serve_wr_intEn (s : State) (w : Word) :
    s.serve (.wr (s.params.regBase + 0x08) w) = .next { s with ie := w.getLsbD 0 } :=
  s.serve_wr_offset (off := 0x08) (by decide) (by decide) w

/-- Settles O36: a command's end, acceptance, the two register writes and reset, one by one. -/
theorem interruptLevel : Obligations.InterruptLevel := by
  unfold Obligations.InterruptLevel
  intro s
  refine ⟨State.irq_eq_true, fun i hie => ⟨_, exec_eq i s, ?_⟩,
    fun c hidle => ⟨_, State.serve_wr_cmd_idle hidle c, fun hie => ?_⟩,
    fun w hdone herr => ⟨_, s.serve_wr_status w, State.writeStatus_irq hdone herr⟩,
    fun w => ⟨_, s.serve_wr_intEn w, rfl⟩, rfl⟩
  · rw [s.checked_irq, hie]
  · rw [s.accept_irq, hie, Bool.true_and]

end Sys2Proof.Machine
end

section
/-! PROOFS. The reset values (70_reset_and_hazards.md R230): the state after the reset input and the
one at power-up hold the same registers. -/

namespace Sys2Proof.Machine

theorem step_of_events_reset {s : State} {rest : List Event} (h : s.events = .reset :: rest) :
    step s = .next (State.applyReset { s with events := rest }) := by
  simp only [step, State.nextTurn, h]

theorem State.statusWord_eq_zero {s : State} (hphase : s.phase = .idle) (hdone : s.done = false)
    (herr : s.err = false) (hovr : s.ovr = false) (hcode : s.errcode = 0) : s.statusWord = 0 := by
  rw [s.statusWord_eq_append, State.busy, hphase, hdone, herr, hovr, hcode]
  rfl

/-- Settles O45: `STATUS` reads 0 because each of its fields is at its reset value. -/
theorem resetValues : Obligations.ResetValues := by
  unfold Obligations.ResetValues
  intro s rest hev
  refine ⟨_, step_of_events_reset hev, State.applyReset_events _, State.applyReset_params _, ?_⟩
  rintro u (rfl | rfl) <;>
    exact ⟨State.statusWord_eq_zero rfl rfl rfl rfl rfl, rfl, rfl, rfl, rfl, rfl, rfl, rfl, rfl,
      rfl, rfl⟩

end Sys2Proof.Machine
end

section
/-! PROOFS. What a step can do, named once: an effect on the host's side alone, a `STATUS` write, an
acceptance, a host memory write, reset, or the end of the running command by failure or by success.
The claims on every step are read off these seven cases. -/

namespace Sys2Proof.Machine

open Sys2Proof.Claims

/-- `t` differs from `s` at most on the host's side: OVR, IE, the operand registers, the inputs to
come, what the host has read, and the draws. -/
structure State.AgreesOnEngine (s t : State) : Prop where
  params : t.params = s.params
  phase : t.phase = s.phase
  done : t.done = s.done
  err : t.err = s.err
  errcode : t.errcode = s.errcode
  outLen : t.outLen = s.outLen
  v : t.v = s.v
  lat : t.lat = s.lat
  engine : t.engine = s.engine
  mem : t.mem = s.mem
  raceIn : t.raceIn = s.raceIn
  raceOut : t.raceOut = s.raceOut

theorem State.agreesOnEngine_withEvents (s : State) (rest : List Event) :
    s.AgreesOnEngine { s with events := rest } := by
  constructor <;> rfl

/-- A register write is an acceptance, a `STATUS` write, or no matter of the engine's. -/
theorem State.writeReg_cases (s : State) (r : Reg) (w : Word) :
    (r = .cmd ∧ s.busy = false ∧ s.writeReg r w = s.accept w) ∨
      (r = .status ∧ s.writeReg r w = s.writeStatus w) ∨
      s.AgreesOnEngine (s.writeReg r w) := by
  cases r
  case cmd =>
    rw [State.writeReg, State.writeCmd]
    cases s.busy with
    | false => exact .inl ⟨rfl, rfl, rfl⟩
    | true => exact .inr (.inr (by constructor <;> rfl))
  case status => exact .inr (.inl ⟨rfl, rfl⟩)
  all_goals exact .inr (.inr (by constructor <;> rfl))

theorem eq_of_regAt_eq_cmd {off : Nat} (h : regAt off = .cmd) : off = 0x00 := by
  unfold regAt at h
  split at h <;> cases h
  rfl

/-- What one step does from `s`, by the state it answers. -/
inductive StepEffect (s : State) : State → Prop where
  /-- Reads, register writes the engine takes no part in, and turns that nobody uses. -/
  | hostSide {t : State} (hagrees : s.AgreesOnEngine t) : StepEffect s t
  | statusWrite (w : Word) (rest : List Event)
      (hev : s.events = .host (.wr (s.params.regBase + 0x04) w) :: rest) :
      StepEffect s (State.writeStatus { s with events := rest } w)
  | acceptance (c : Word) (rest : List Event) (hbusy : s.busy = false)
      (hev : s.events = .host (.wr s.params.regBase c) :: rest) :
      StepEffect s (State.accept { s with events := rest } c)
  | memoryWrite (addr : Nat) (bytes : List Byte) (rest : List Event)
      (hrange : addr + bytes.length ≤ s.params.memBytes) :
      StepEffect s (State.hostWrite { s with events := rest } addr bytes)
  | reset (rest : List Event) (hev : s.events = .reset :: rest) :
      StepEffect s (State.applyReset { s with events := rest })
  | failure (i : Instr) (c : ErrCause) (rest : List Event) (hbusy : s.busy = true)
      (hi : s.latchedInstr = some i) (hfits : ¬(rangesFit i s ∧ bufferFits i s)) :
      StepEffect s (State.abort { s with events := rest } c)
  | success (i : Instr) (rest : List Event) (hbusy : s.busy = true)
      (hi : s.latchedInstr = some i) (hranges : rangesFit i s) (hbuffer : bufferFits i s) :
      StepEffect s (bodyOf i { s with events := rest })

/-- The inputs to come take no part in the checks. -/
theorem fits_withEvents (i : Instr) (s : State) (rest : List Event) :
    (rangesFit i { s with events := rest } ∧ bufferFits i { s with events := rest }) ↔
      (rangesFit i s ∧ bufferFits i s) := by
  cases i <;> exact Iff.rfl

theorem StepEffect.of_serve {s t : State} {op : HostOp} {rest : List Event}
    (hev : s.events = .host op :: rest)
    (h : State.serve { s with events := rest } op = .next t) : StepEffect s t := by
  rcases State.serve_cases h with ⟨addr, w, off, rfl, hoff, rfl⟩ | ⟨o, rfl⟩ |
    ⟨addr, bytes, rfl, hrange, rfl⟩
  · obtain ⟨rfl, -⟩ := portOffset_eq_some.mp hoff
    rcases State.writeReg_cases { s with events := rest } (regAt off) w with
      ⟨hreg, hbusy, hwrite⟩ | ⟨hreg, hwrite⟩ | hagrees
    · rw [hwrite]
      exact .acceptance w rest hbusy (by rw [hev, eq_of_regAt_eq_cmd hreg]; rfl)
    · rw [hwrite]
      exact .statusWrite w rest (by rw [hev, eq_of_regAt_eq_status hreg])
    · exact .hostSide { hagrees with }
  · exact .hostSide (by constructor <;> rfl)
  · exact .memoryWrite addr bytes rest hrange

/-- Every step that answers a next state has one of the seven effects. -/
theorem step_effect {s t : State} (h : step s = .next t) : StepEffect s t := by
  rcases step_cases h with ⟨-, rest, rfl⟩ | ⟨op, rest, hev, hserve⟩ | ⟨rest, hev, rfl⟩ |
    ⟨hbusy, i, rest, hi, rfl⟩
  · exact .hostSide (s.agreesOnEngine_withEvents rest)
  · exact .of_serve hev hserve
  · exact .reset rest hev
  · by_cases hfits : rangesFit i s ∧ bufferFits i s
    case pos =>
      obtain ⟨hranges, hbuffer⟩ := (fits_withEvents i s rest).mpr hfits
      rw [State.checked_of_fits (bodyOf i) hranges hbuffer]
      exact .success i rest hbusy hi hfits.1 hfits.2
    case neg =>
      obtain ⟨c, habort⟩ := State.checked_of_not_fits (bodyOf i)
        (mt (fits_withEvents i s rest).mp hfits)
      rw [habort]
      exact .failure i c rest hbusy hi hfits

end Sys2Proof.Machine
end

section
/-! PROOFS. The invariant. Each effect of a step keeps it: the report, the running command and the
internal state are looked at one by one, and a command writes within the memory because its checks
have passed. -/

namespace Sys2Proof.Machine

open Sys2Proof.Claims

theorem State.ReportInv.congr {s t : State} (h : s.ReportInv) (hdone : t.done = s.done)
    (herr : t.err = s.err) (hcode : t.errcode = s.errcode) (hlen : t.outLen = s.outLen) :
    t.ReportInv where
  notBoth := by rw [hdone, herr]; exact h.notBoth
  codeZero := by rw [herr, hcode]; exact h.codeZero
  codeKnown := by rw [herr, hcode]; exact h.codeKnown
  failedLength := by rw [herr, hlen]; exact h.failedLength

/-- A report without a failure is in order. -/
theorem State.reportInv_of_no_err {s : State} (herr : s.err = false) (hcode : s.errcode = 0) :
    s.ReportInv where
  notBoth h := Bool.noConfusion (herr.symm.trans h.2)
  codeZero _ := hcode
  codeKnown h := Bool.noConfusion (herr.symm.trans h)
  failedLength h := Bool.noConfusion (herr.symm.trans h)

theorem ErrCause.code_known (c : ErrCause) : c.code = 1 ∨ c.code = 2 ∨ c.code = 3 := by
  cases c <;> decide

/-- So is the report that `raise` leaves where DONE is 0 (R204). -/
theorem State.raise_reportInv {s : State} (c : ErrCause) (hdone : s.done = false) :
    (s.raise c).ReportInv where
  notBoth h := Bool.noConfusion (hdone.symm.trans h.1)
  codeZero h := Bool.noConfusion h
  codeKnown _ := c.code_known
  failedLength _ := rfl

theorem State.latchedInstr_congr {s t : State} (h : t.lat = s.lat) :
    t.latchedInstr = s.latchedInstr := by
  rw [State.latchedInstr, h, ← State.latchedInstr]

theorem State.RunInv.congr {s t : State} (h : s.RunInv) (hphase : t.phase = s.phase)
    (hdone : t.done = s.done) (herr : t.err = s.err) (hlat : t.lat = s.lat)
    (hin : t.raceIn = s.raceIn) (hout : t.raceOut = s.raceOut) : t.RunInv where
  clean := by rw [hphase, hdone, herr]; exact h.clean
  legal := by rw [hphase, State.latchedInstr_congr hlat]; exact h.legal
  noRace := by rw [hphase, hin, hout]; exact h.noRace

theorem State.runInv_of_idle {s : State} (hidle : s.phase = .idle) (hraces : unraced s) :
    s.RunInv where
  clean hrun := nomatch hidle.symm.trans hrun
  legal hrun := nomatch hidle.symm.trans hrun
  noRace _ := hraces

theorem State.EngineInv.congr {s t : State} (h : s.EngineInv) (hparams : t.params = s.params)
    (hengine : t.engine = s.engine) : t.EngineInv where
  buffer := by rw [hparams, hengine]; exact h.buffer
  words := by rw [hengine]; exact h.words
  counter := by rw [hengine]; exact h.counter
  key := by rw [hengine]; exact h.key
  pads := by rw [hengine]; exact h.pads
  inner := by rw [hengine]; exact h.inner

/-- The internal state a command or reset leaves has the sizes of R41 to R45, whatever it holds. -/
theorem State.engineInv_of_free {s : State} {d : Nat} (h : s.engine = Engine.free s.params d) :
    s.EngineInv where
  buffer := by rw [h, Engine.free, freeBytes_length]; exact bufferHolds_freeBufferLength s.params d
  words := by rw [h]; exact ⟨freeWords_length d 100 68, freeWords_length d 200 64⟩
  counter := by rw [h]; exact Nat.mod_lt _ (by decide)
  key := by rw [h, Engine.free, freeBytes_length]; omega
  pads := by rw [h]; exact ⟨freeBytes_length d 65 64, freeBytes_length d 129 64⟩
  inner := by rw [h]; exact freeBytes_length d 193 32

theorem State.Inv.of_agrees {s t : State} (h : s.Inv) (ha : s.AgreesOnEngine t) : t.Inv where
  params := by rw [ha.params]; exact h.params
  memWf := by rw [ha.mem]; exact h.memWf
  memWithin := by rw [ha.params, ha.mem]; exact h.memWithin
  report := h.report.congr ha.done ha.err ha.errcode ha.outLen
  running := h.running.congr ha.phase ha.done ha.err ha.lat ha.raceIn ha.raceOut
  engine := h.engine.congr ha.params ha.engine

theorem State.Inv.withEvents {s : State} (h : s.Inv) (rest : List Event) :
    State.Inv { s with events := rest } := h.of_agrees (s.agreesOnEngine_withEvents rest)

/-- The report of a running command is clear, so ERR is 0 and DONE is 0 (R82). -/
theorem State.Inv.clean_of_busy {s : State} (h : s.Inv) (hbusy : s.busy = true) :
    s.done = false ∧ s.err = false := h.running.clean (State.busy_eq_true.mp hbusy)

/-- A write with bit 2 set leaves no failure to report; without it, DONE alone can fall. -/
theorem State.writeStatus_reportInv {s : State} (h : s.ReportInv) (w : Word) :
    (s.writeStatus w).ReportInv := by
  have herr := s.writeStatus_err w
  have hcode := s.writeStatus_errcode w
  cases hclear : w.getLsbD 2 with
  | true =>
    rw [hclear, Bool.not_true, Bool.and_false] at herr
    exact State.reportInv_of_no_err herr (hcode.trans (if_pos hclear))
  | false =>
    rw [hclear, Bool.not_false, Bool.and_true] at herr
    rw [hclear, if_neg Bool.noConfusion] at hcode
    exact {
      notBoth := fun ⟨hdone, hfail⟩ =>
        h.notBoth ⟨(Bool.and_eq_true_iff.mp hdone).1, herr.symm.trans hfail⟩
      codeZero := by rw [herr, hcode]; exact h.codeZero
      codeKnown := by rw [herr, hcode]; exact h.codeKnown
      failedLength := by rw [herr]; exact h.failedLength }

theorem State.writeStatus_inv {s : State} (h : s.Inv) (w : Word) : (s.writeStatus w).Inv where
  params := h.params
  memWf := h.memWf
  memWithin := h.memWithin
  report := State.writeStatus_reportInv h.report w
  running := {
    clean := fun hrun => by
      obtain ⟨hdone, herr⟩ := h.running.clean hrun
      simp [hdone, herr]
    legal := h.running.legal
    noRace := h.running.noRace }
  engine := h.engine.congr rfl rfl

/-- Acceptance leaves a failed report while idle, or a clear one with a legal command running. -/
theorem State.accept_inv {s : State} (h : s.Inv) (hidle : s.phase = .idle) (c : Word) :
    (s.accept c).Inv := by
  rcases s.accept_cases c with ⟨e, -, haccept⟩ | ⟨i, -, haccept, hlatched⟩
  · rw [haccept]
    exact ⟨h.params, h.memWf, h.memWithin, State.raise_reportInv _ rfl,
      State.runInv_of_idle rfl (h.running.noRace hidle), h.engine.congr rfl rfl⟩
  · rw [haccept] at hlatched ⊢
    exact ⟨h.params, h.memWf, h.memWithin, State.reportInv_of_no_err rfl rfl,
      ⟨fun _ => ⟨rfl, rfl⟩, fun _ => by rw [hlatched]; rfl, nofun⟩, h.engine.congr rfl rfl⟩

/-- While idle nothing is noted of a host write (R240). -/
theorem State.hostWrite_of_idle {s : State} (hidle : s.phase = .idle) (addr : Nat)
    (bytes : List Byte) :
    s.hostWrite addr bytes = { s with mem := s.mem.writeBytes addr bytes } := by
  rw [State.hostWrite, State.noteHostWrite, State.busy_eq_false.mpr hidle,
    if_neg Bool.noConfusion]

theorem State.hostWrite_runInv {s : State} (h : s.RunInv) (addr : Nat) (bytes : List Byte) :
    (s.hostWrite addr bytes).RunInv := by
  cases hphase : s.phase with
  | idle =>
    rw [State.hostWrite_of_idle hphase]
    exact h.congr rfl rfl rfl rfl rfl rfl
  | run =>
    rw [State.hostWrite_eq]
    exact ⟨h.clean, h.legal, fun hidle => nomatch hphase.symm.trans hidle⟩

theorem State.hostWrite_inv {s : State} (h : s.Inv) {addr : Nat} {bytes : List Byte}
    (hrange : addr + bytes.length ≤ s.params.memBytes) : (s.hostWrite addr bytes).Inv := by
  have hrunning := State.hostWrite_runInv h.running addr bytes
  rw [State.hostWrite_eq] at hrunning ⊢
  exact ⟨h.params, Memory.wf_writeBytes h.memWf _ _,
    Memory.within_writeBytes h.memWithin _ _ hrange, h.report.congr rfl rfl rfl rfl, hrunning,
    h.engine.congr rfl rfl⟩

/-- A command that passes its checks writes within the memory. INIT and COMPRESS write nothing, and
their `dst` is not looked at. -/
theorem bytesWritten_within_memory {i : Instr} {s : State} (h : rangesFit i s) :
    bytesWritten i s = 0 ∨ s.lat.dst.toNat + bytesWritten i s ≤ s.params.memBytes := by
  cases i with
  | pad => exact .inr h.2
  | expand => exact .inr h.2
  | init => exact .inl rfl
  | compress => exact .inl rfl
  | digest => exact .inr h.2
  | hmac => exact .inr h.2.2

theorem Memory.within_writeDestination {i : Instr} {s : State} (h : s.Inv) (hranges : rangesFit i s)
    {out : List Byte} (hlen : out.length = bytesWritten i s) :
    (s.mem.writeBytes s.lat.dst.toNat out).within s.params.memBytes = true := by
  rcases bytesWritten_within_memory hranges with hnone | hdst
  · rw [List.eq_nil_of_length_eq_zero (hlen.trans hnone)]
    exact h.memWithin
  · exact Memory.within_writeBytes h.memWithin _ _ (by rwa [hlen])

/-- Reset leaves a memory that is canonical and within the addresses that exist. -/
theorem State.memAfterReset_inv {s : State} (h : s.Inv) :
    s.memAfterReset.wf = true ∧ s.memAfterReset.within s.params.memBytes = true := by
  rcases s.memAfterReset_cases with hmem | ⟨i, -, -, hcheck, hmem⟩ <;> rw [hmem]
  · exact ⟨h.memWf, h.memWithin⟩
  · obtain ⟨hranges, -⟩ := commandError_eq_none_iff_fits.mp hcheck
    exact ⟨Memory.wf_writeBytes h.memWf _ _,
      Memory.within_writeDestination h hranges (abandonedBytes_length _ _)⟩

theorem State.applyReset_inv {s : State} (h : s.Inv) : s.applyReset.Inv where
  params := h.params
  memWf := (State.memAfterReset_inv h).1
  memWithin := (State.memAfterReset_inv h).2
  report := State.reportInv_of_no_err rfl rfl
  running := State.runInv_of_idle rfl ⟨rfl, rfl⟩
  engine := State.engineInv_of_free rfl

theorem State.abort_inv {s : State} (h : s.Inv) (hbusy : s.busy = true) (c : ErrCause) :
    (s.abort c).Inv where
  params := h.params
  memWf := h.memWf
  memWithin := h.memWithin
  report := (State.raise_reportInv c (h.clean_of_busy hbusy).1).congr rfl rfl rfl rfl
  running := State.runInv_of_idle rfl ⟨rfl, rfl⟩
  engine := State.engineInv_of_free rfl

theorem bodyOf_mem_inv {i : Instr} {s : State} (h : s.Inv) (hranges : rangesFit i s) :
    (bodyOf i s).mem.wf = true ∧ (bodyOf i s).mem.within s.params.memBytes = true := by
  obtain ⟨out, hlen, hmem⟩ := bodyOf_mem i s
  rw [hmem]
  refine ⟨Memory.wf_writeBytes h.memWf _ _, Memory.within_writeDestination h hranges ?_⟩
  rw [State.settledBytes_length, hlen, outLength_eq_bytesWritten]

theorem bodyOf_inv {i : Instr} {s : State} (h : s.Inv) (hbusy : s.busy = true)
    (hranges : rangesFit i s) : (bodyOf i s).Inv := by
  obtain ⟨hparams, hphase, -, herr, -, hcode, -, -, -, -, -, -, -, -, hengine, hin, hout, -⟩ :=
    bodyOf_fields i s
  obtain ⟨hwf, hwithin⟩ := bodyOf_mem_inv h hranges
  obtain ⟨-, hclean⟩ := h.clean_of_busy hbusy
  exact {
    params := by rw [hparams]; exact h.params
    memWf := hwf
    memWithin := by rw [hparams]; exact hwithin
    report := State.reportInv_of_no_err (herr.trans hclean)
      (hcode.trans (h.report.codeZero hclean))
    running := State.runInv_of_idle hphase ⟨hin, hout⟩
    engine := State.engineInv_of_free (by rw [hengine, hparams]) }

theorem StepEffect.inv {s t : State} (h : s.Inv) (heffect : StepEffect s t) : t.Inv := by
  cases heffect with
  | hostSide hagrees => exact h.of_agrees hagrees
  | statusWrite w rest => exact State.writeStatus_inv (h.withEvents rest) w
  | acceptance c rest hbusy =>
    exact State.accept_inv (h.withEvents rest) (State.busy_eq_false.mp hbusy) c
  | memoryWrite addr bytes rest hrange => exact State.hostWrite_inv (h.withEvents rest) hrange
  | reset rest => exact State.applyReset_inv (h.withEvents rest)
  | failure i c rest hbusy => exact State.abort_inv (h.withEvents rest) hbusy c
  | success i rest hbusy hi hranges hbuffer =>
    obtain ⟨hranges, -⟩ := (fits_withEvents i s rest).mpr ⟨hranges, hbuffer⟩
    exact bodyOf_inv (h.withEvents rest) hbusy hranges

theorem State.accept_params (s : State) (c : Word) : (s.accept c).params = s.params := by
  rcases s.accept_cases c with ⟨_, -, h⟩ | ⟨_, -, h, -⟩ <;> rw [h] <;> rfl

theorem StepEffect.params_eq {s t : State} (heffect : StepEffect s t) : t.params = s.params := by
  cases heffect with
  | hostSide hagrees => exact hagrees.params
  | acceptance c => exact State.accept_params _ c
  | memoryWrite => rw [State.hostWrite_eq]
  | success i rest => exact (bodyOf_fields i { s with events := rest }).1
  | statusWrite | reset | failure => rfl

/-- Settles O49: each of the seven effects of a step keeps the invariant and the parameters. -/
theorem stepKeepsInvariant : Obligations.StepKeepsInvariant := by
  unfold Obligations.StepKeepsInvariant
  exact fun s t h hstep => ⟨(step_effect hstep).inv h, (step_effect hstep).params_eq⟩

end Sys2Proof.Machine
end

section
/-! PROOFS. The turn (10_state.md R20, R21): whose turn it is says what the step is. -/

namespace Sys2Proof.Machine

theorem State.nextTurn_of_host {s : State} {op : HostOp} {rest : List Event}
    (hev : s.events = .host op :: rest) (hop : s.busy = false ∨ ∀ name, op ≠ .wait name) :
    s.nextTurn = (.host op, { s with events := rest }) := by
  cases op with
  | wait name =>
    have hbusy : s.busy = false := hop.resolve_right fun hne => hne name rfl
    simp only [State.nextTurn, hev, hbusy, Bool.false_eq_true, if_false]
  | wr | rd | mw | mr => simp only [State.nextTurn, hev]

/-- A busy engine has the turn when the next input gives it, when none is left, and while the host
waits. -/
theorem State.nextTurn_of_busy {s : State} {rest : List Event} (hbusy : s.busy = true)
    (hev : s.events = .engine :: rest ∨
      (s.events = rest ∧ (rest = [] ∨ ∃ name more, rest = .host (.wait name) :: more))) :
    s.nextTurn = (.engine, { s with events := rest }) := by
  rcases hev with hev | ⟨rfl, hev | ⟨name, more, hev⟩⟩ <;>
    simp only [State.nextTurn, hev, hbusy, if_true]
  · rw [← hev]
  · rw [← hev]

theorem step_of_host {s : State} {op : HostOp} {rest : List Event}
    (h : s.nextTurn = (.host op, { s with events := rest })) :
    step s = State.serve { s with events := rest } op := by
  rw [step, h]

theorem step_of_engine {s : State} {i : Instr} {rest : List Event}
    (h : s.nextTurn = (.engine, { s with events := rest })) (hi : s.latchedInstr = some i) :
    step s = exec i { s with events := rest } := by
  have hlatched : State.latchedInstr { s with events := rest } = some i := hi
  simp only [step, h, hlatched]

theorem State.latchedInstr_of_decode {s : State} {i : Instr}
    (h : decode (s.lat.op.setWidth 32) = .ok i) : s.latchedInstr = some i := by
  rw [State.latchedInstr, h]

/-- Settles O4: the engine has the turn, and what it runs is the latched command. -/
theorem stepRunsLatchedCommand : Obligations.StepRunsLatchedCommand := by
  unfold Obligations.StepRunsLatchedCommand
  intro s i rest hrun hdecode hev
  exact step_of_engine (State.nextTurn_of_busy (State.busy_eq_true.mpr hrun) hev)
    (State.latchedInstr_of_decode hdecode)

theorem step_of_events_host {s : State} {op : HostOp} {rest : List Event}
    (hev : s.events = .host op :: rest) (hop : s.phase = .idle ∨ ∀ name, op ≠ .wait name) :
    step s = State.serve { s with events := rest } op :=
  step_of_host (State.nextTurn_of_host hev (hop.imp_left State.busy_eq_false.mpr))

/-- Settles O5: the turn is the host's, reset's, or nobody's. -/
theorem stepServesHostAndReset : Obligations.StepServesHostAndReset := by
  unfold Obligations.StepServesHostAndReset
  refine fun s rest => ⟨fun op => step_of_events_host, step_of_events_reset,
    fun hev hidle => ?_, fun hev hidle => ?_⟩ <;>
  · have hbusy := State.busy_eq_false.mpr hidle
    simp only [step, State.nextTurn, hev, hbusy, Bool.false_eq_true, if_false]

/-- Settles O52: the wait ends as a read of `STATUS`, whose word is its fields side by side. -/
theorem waitRecordsStatus : Obligations.WaitRecordsStatus := by
  unfold Obligations.WaitRecordsStatus
  intro s name rest hidle hev
  have hstep := step_of_events_host hev (.inl hidle)
  obtain ⟨hbusy, hdone, herr, hovr⟩ := s.statusWord_flags
  exact ⟨s.statusWord, hstep, hbusy.trans (State.busy_eq_false.mpr hidle), hdone, herr, hovr,
    s.statusWord_errcode, s.statusWord_reserved⟩

theorem State.accept_of_decode {s : State} {c : Word} {i : Instr} (h : decode c = .ok i) :
    s.accept c = { s.clearReport with
      lat := s.latchOperands c, phase := .run, raceIn := false, raceOut := [] } := by
  rw [State.accept, h]

/-- The word of a command is placed as itself: none of its bits is above bit 31. -/
theorem State.withFetchWord_encode (s : State) (i : Instr) :
    s.withFetchWord 32 (encode i).toNat =
      { s.accept (encode i) with events := .engine :: s.events } := by
  have hdecode : decode (encode i) = .ok i := decode_eq_ok_iff_eq_encode.mpr rfl
  rw [State.withFetchWord, Nat.mod_eq_of_lt (encode i).isLt, BitVec.ofNat_toNat,
    BitVec.setWidth_eq, State.placeCommand, hdecode]

theorem State.latchOperands_encode (s : State) (i : Instr) :
    s.latchOperands (encode i) =
      ⟨opcodeOf i, s.srcAddr, s.srcLen, s.keyAddr, s.keyLen, s.dstAddr⟩ := by
  have hdecode : decode (encode i) = .ok i := decode_eq_ok_iff_eq_encode.mpr rfl
  rw [State.latchOperands, (decode_eq_ok.mp hdecode).2]

/-- Settles O6: the placed word is accepted, and the engine's turn stands first in the inputs. -/
theorem placedCommandRunsNext : Obligations.PlacedCommandRunsNext := by
  unfold Obligations.PlacedCommandRunsNext
  intro s i
  have hdecode : decode (encode i) = .ok i := decode_eq_ok_iff_eq_encode.mpr rfl
  have hop : decode ((opcodeOf i).setWidth 32) = .ok i := hdecode
  rw [s.withFetchWord_encode, State.accept_of_decode hdecode, s.latchOperands_encode]
  exact step_of_engine (State.nextTurn_of_busy rfl (.inl rfl)) (State.latchedInstr_of_decode hop)

end Sys2Proof.Machine
end

section
/-! PROOFS. The report over a step (10_state.md R25 to R30, 60_exceptions.md R205), read off the
effects: only acceptance starts a command, only a command's end or a rejection reports. -/

namespace Sys2Proof.Machine

open Sys2Proof.Claims

theorem State.busy_congr {s t : State} (h : t.phase = s.phase) : t.busy = s.busy := by
  rw [State.busy, h, ← State.busy]

theorem State.hostWrite_busy (s : State) (addr : Nat) (bytes : List Byte) :
    (s.hostWrite addr bytes).busy = s.busy := by
  rw [State.hostWrite_eq]
  rfl

theorem State.hostWrite_done (s : State) (addr : Nat) (bytes : List Byte) :
    (s.hostWrite addr bytes).done = s.done := by
  rw [State.hostWrite_eq]

theorem State.hostWrite_err (s : State) (addr : Nat) (bytes : List Byte) :
    (s.hostWrite addr bytes).err = s.err := by
  rw [State.hostWrite_eq]

theorem State.hostWrite_v (s : State) (addr : Nat) (bytes : List Byte) :
    (s.hostWrite addr bytes).v = s.v := by
  rw [State.hostWrite_eq]

theorem State.accept_done (s : State) (c : Word) : (s.accept c).done = false := by
  rcases s.accept_cases c with ⟨_, -, h⟩ | ⟨_, -, h, -⟩ <;> rw [h] <;> rfl

theorem State.accept_v (s : State) (c : Word) : (s.accept c).v = s.v := by
  rcases s.accept_cases c with ⟨_, -, h⟩ | ⟨_, -, h, -⟩ <;> rw [h] <;> rfl

/-- The engine is busy after acceptance only where the word was legal, with its opcode latched. -/
theorem State.accept_busy {s : State} {c : Word} (h : (s.accept c).busy = true) :
    ∃ i, decode c = .ok i ∧ (s.accept c).lat.op = opcodeOf i := by
  rcases s.accept_cases c with ⟨e, -, haccept⟩ | ⟨i, hok, haccept, -⟩ <;> rw [haccept] at h ⊢
  · exact absurd h Bool.noConfusion
  · exact ⟨i, hok, (decode_eq_ok.mp hok).2⟩

theorem bodyOf_done (i : Instr) (s : State) : (bodyOf i s).done = true := by
  obtain ⟨-, -, hdone, -⟩ := bodyOf_fields i s
  exact hdone

theorem bodyOf_err (i : Instr) (s : State) : (bodyOf i s).err = s.err := by
  obtain ⟨-, -, -, herr, -⟩ := bodyOf_fields i s
  exact herr

theorem bodyOf_busy (i : Instr) (s : State) : (bodyOf i s).busy = false := by
  obtain ⟨-, hphase, -⟩ := bodyOf_fields i s
  exact State.busy_eq_false.mpr hphase

theorem StepEffect.busy_rises {s t : State} (h : StepEffect s t) (hidle : s.busy = false)
    (hbusy : t.busy = true) :
    ∃ c i rest, s.events = .host (.wr s.params.regBase c) :: rest ∧ decode c = .ok i ∧
      t.lat.op = opcodeOf i := by
  cases h with
  | acceptance c rest _ hev =>
    obtain ⟨i, hok, hop⟩ := State.accept_busy hbusy
    exact ⟨c, i, rest, hev, hok, hop⟩
  | hostSide hagrees =>
    rw [State.busy_congr hagrees.phase, hidle] at hbusy
    exact Bool.noConfusion hbusy
  | memoryWrite =>
    rw [State.hostWrite_busy] at hbusy
    exact Bool.noConfusion (hidle.symm.trans hbusy)
  | statusWrite => exact Bool.noConfusion (hidle.symm.trans hbusy)
  | reset => exact Bool.noConfusion hbusy
  | failure _ _ _ hrunning => exact Bool.noConfusion (hidle.symm.trans hrunning)
  | success _ _ hrunning => exact Bool.noConfusion (hidle.symm.trans hrunning)

/-- A running command ends with one of DONE and ERR, by whether its checks passed, or by reset. -/
theorem StepEffect.busy_falls {s t : State} (h : StepEffect s t) (hinv : s.Inv)
    (hbusy : s.busy = true) (hidle : t.busy = false) :
    (∃ rest, s.events = .reset :: rest) ∨
      (∃ i, s.latchedInstr = some i ∧
        ((rangesFit i s ∧ bufferFits i s ∧ t.done = true ∧ t.err = false) ∨
          (¬(rangesFit i s ∧ bufferFits i s) ∧ t.done = false ∧ t.err = true))) := by
  obtain ⟨hdone, herr⟩ := hinv.clean_of_busy hbusy
  cases h with
  | reset rest hev => exact .inl ⟨rest, hev⟩
  | failure i c rest _ hi hfits => exact .inr ⟨i, hi, .inr ⟨hfits, hdone, rfl⟩⟩
  | success i rest _ hi hranges hbuffer =>
    exact .inr ⟨i, hi, .inl ⟨hranges, hbuffer, bodyOf_done i _, (bodyOf_err i _).trans herr⟩⟩
  | hostSide hagrees =>
    rw [State.busy_congr hagrees.phase, hbusy] at hidle
    exact Bool.noConfusion hidle
  | memoryWrite =>
    rw [State.hostWrite_busy] at hidle
    exact Bool.noConfusion (hbusy.symm.trans hidle)
  | statusWrite => exact Bool.noConfusion (hbusy.symm.trans hidle)
  | acceptance _ _ hnot => exact Bool.noConfusion (hbusy.symm.trans hnot)

/-- Settles O32: acceptance is the one effect that starts a command; reset and the command's end are
the ones that stop it. -/
theorem busyFromAcceptanceToCompletion : Obligations.BusyFromAcceptanceToCompletion := by
  unfold Obligations.BusyFromAcceptanceToCompletion
  exact fun s t hinv hstep => ⟨(step_effect hstep).busy_rises, (step_effect hstep).busy_falls hinv⟩

theorem StepEffect.done_rises {s t : State} (h : StepEffect s t) (hclear : s.done = false)
    (hset : t.done = true) :
    s.busy = true ∧ t.busy = false ∧
      ∃ i, s.latchedInstr = some i ∧ rangesFit i s ∧ bufferFits i s := by
  cases h with
  | success i rest hbusy hi hranges hbuffer =>
    exact ⟨hbusy, bodyOf_busy i _, i, hi, hranges, hbuffer⟩
  | hostSide hagrees => exact Bool.noConfusion (hclear.symm.trans (hagrees.done.symm.trans hset))
  | memoryWrite =>
    rw [State.hostWrite_done] at hset
    exact Bool.noConfusion (hclear.symm.trans hset)
  | acceptance c => exact Bool.noConfusion ((State.accept_done _ c).symm.trans hset)
  | statusWrite =>
    exact Bool.noConfusion (hclear.symm.trans (Bool.and_eq_true_iff.mp hset).1)
  | reset => exact Bool.noConfusion hset
  | failure => exact Bool.noConfusion (hclear.symm.trans hset)

theorem StepEffect.done_falls {s t : State} (h : StepEffect s t) (hset : s.done = true)
    (hclear : t.done = false) :
    (∃ rest, s.events = .reset :: rest) ∨
      (∃ c rest, s.busy = false ∧ s.events = .host (.wr s.params.regBase c) :: rest) ∨
      (∃ w rest, s.events = .host (.wr (s.params.regBase + 0x04) w) :: rest ∧
        w.getLsbD 1 = true) := by
  cases h with
  | reset rest hev => exact .inl ⟨rest, hev⟩
  | acceptance c rest hbusy hev => exact .inr (.inl ⟨c, rest, hbusy, hev⟩)
  | statusWrite w rest hev =>
    rw [State.writeStatus_done, hset, Bool.true_and, Bool.not_eq_false'] at hclear
    exact .inr (.inr ⟨w, rest, hev, hclear⟩)
  | hostSide hagrees => exact Bool.noConfusion (hset.symm.trans (hagrees.done.symm.trans hclear))
  | memoryWrite =>
    rw [State.hostWrite_done] at hclear
    exact Bool.noConfusion (hset.symm.trans hclear)
  | failure => exact Bool.noConfusion (hset.symm.trans hclear)
  | success i => exact Bool.noConfusion ((bodyOf_done i _).symm.trans hclear)

/-- Settles O33: success is the one effect that sets DONE. -/
theorem doneRisesOnSuccessOnly : Obligations.DoneRisesOnSuccessOnly := by
  unfold Obligations.DoneRisesOnSuccessOnly
  exact fun s t hstep => ⟨(step_effect hstep).done_rises, (step_effect hstep).done_falls⟩

/-- Settles O35: ERR is set by `raise` alone, at a rejection or at the end of a command, and neither
has written a result before it. -/
theorem failureLeavesNoPartialResult : Obligations.FailureLeavesNoPartialResult := by
  unfold Obligations.FailureLeavesNoPartialResult
  intro s t hinv hstep hclear hset
  cases step_effect hstep with
  | acceptance c rest =>
    rcases State.accept_cases { s with events := rest } c with
      ⟨e, -, haccept⟩ | ⟨i, -, haccept, -⟩ <;> rw [haccept] at hset ⊢
    · exact ⟨rfl, rfl, rfl, rfl, rfl, ErrCause.code_known .illegalCmd⟩
    · exact absurd hset Bool.noConfusion
  | failure i c rest hbusy =>
    exact ⟨rfl, rfl, rfl, (hinv.clean_of_busy hbusy).1, rfl, c.code_known⟩
  | hostSide hagrees => exact Bool.noConfusion (hclear.symm.trans (hagrees.err.symm.trans hset))
  | memoryWrite =>
    rw [State.hostWrite_err] at hset
    exact Bool.noConfusion (hclear.symm.trans hset)
  | statusWrite =>
    exact Bool.noConfusion (hclear.symm.trans (Bool.and_eq_true_iff.mp hset).1)
  | reset => exact Bool.noConfusion hset
  | success i =>
    rw [bodyOf_err] at hset
    exact Bool.noConfusion (hclear.symm.trans hset)

/-- Settles O47: reset and success are the two effects that reach `V`, and of the six bodies PAD's
and EXPAND's do not. -/
theorem chainingWordsWriters : Obligations.ChainingWordsWriters := by
  unfold Obligations.ChainingWordsWriters
  intro s t hstep hv
  cases step_effect hstep with
  | reset rest hev => exact .inl ⟨⟨rest, hev⟩, rfl⟩
  | success i rest hbusy hi hranges hbuffer =>
    refine .inr ⟨hbusy, bodyOf_done i _, bodyOf_err i _, i, hi, hranges, hbuffer, ?_⟩
    cases i with
    | pad => exact absurd (bodyOf_v (.inl rfl) _) hv
    | expand => exact absurd (bodyOf_v (.inr rfl) _) hv
    | init | compress | digest | hmac => simp
  | hostSide hagrees => exact absurd hagrees.v hv
  | acceptance c => exact absurd (State.accept_v _ c) hv
  | memoryWrite addr bytes => exact absurd (State.hostWrite_v _ addr bytes) hv
  | statusWrite | failure => exact absurd rfl hv

end Sys2Proof.Machine
end

section
/-! PROOFS. The whole machine: the invariant at reset (70_reset_and_hazards.md R230), and progress
(00_scope.md R8, 70_reset_and_hazards.md R243): only a host operation that does not exist stops it,
and a running command ends when the inputs before its turn are used up. -/

namespace Sys2Proof.Machine

open Sys2Proof.Claims

/-- The open parameters are folded into what R5 and R6 allow. -/
theorem configParams_wf : Config.params.wf = true := by
  have hmem := Nat.mod_lt Config.rawMemBytes (show 0 < 2 ^ 32 by decide)
  have hbytes : Config.params.memBytesWf = true :=
    Bool.and_eq_true_iff.mpr ⟨decide_eq_true (Nat.succ_pos _), decide_eq_true hmem⟩
  have hbuffer : Config.params.padBufWf = true := by
    rw [Params.padBufWf, Config.params]
    cases Config.rawPadBuf with
    | none => rfl
    | some n =>
      simp only [Option.map_some, Bool.and_eq_true, decide_eq_true_eq]
      omega
  rw [Params.wf, hbytes, hbuffer, Bool.and_self]

theorem bufferHolds_zero (p : Params) : bufferHolds p 0 = true :=
  bufferHolds_iff_capacityAdmits.mpr (capacityAdmits_zero p)

theorem State.powerOn_inv {p : Params} (h : p.wf = true) : (State.powerOn p).Inv where
  params := h
  memWf := rfl
  memWithin := rfl
  report := State.reportInv_of_no_err rfl rfl
  running := State.runInv_of_idle rfl ⟨rfl, rfl⟩
  engine := {
    buffer := bufferHolds_zero p
    words := ⟨rfl, rfl⟩
    counter := Nat.succ_pos 63
    key := Nat.zero_le 64
    pads := ⟨rfl, rfl⟩
    inner := rfl }

/-- Settles O48: every register is at its reset value, with any legal parameters. -/
theorem resetSatisfiesInvariant : Obligations.ResetSatisfiesInvariant :=
  State.powerOn_inv configParams_wf

theorem portOffset_eq_none {p : Params} {addr : Nat} :
    portOffset p addr = none ↔
      ¬(p.regBase ≤ addr ∧ addr < p.regBase + 0x100 ∧ (addr - p.regBase) % 4 = 0) := by
  simp [portOffset]

theorem State.serve_of_exists {s : State} {op : HostOp} (h : hostOpExists s.params op) :
    ∃ t, s.serve op = .next t := by
  cases hserve : s.serve op with
  | next t => exact ⟨t, rfl⟩
  | fault r =>
    obtain ⟨-, ⟨addr, bytes, rfl, hout⟩ | ⟨addr, n, name, rfl, hout⟩⟩ := State.serve_fault hserve
    · exact absurd h (Nat.not_le.mpr hout)
    · exact absurd h (Nat.not_le.mpr hout)
  | refused r =>
    obtain ⟨-, addr, ⟨w, rfl⟩ | ⟨name, rfl⟩, hnone⟩ := State.serve_refused hserve
    · exact absurd h (portOffset_eq_none.mp hnone)
    · exact absurd h (portOffset_eq_none.mp hnone)

theorem State.serve_wr_of_not_exists {s : State} {addr : Nat} {w : Word}
    (h : ¬hostOpExists s.params (.wr addr w)) :
    s.serve (.wr addr w) = .refused .registerAccessOutsidePort := by
  simp only [State.serve, portOffset_eq_none.mpr h]

theorem State.serve_rd_of_not_exists {s : State} {addr name : Nat}
    (h : ¬hostOpExists s.params (.rd addr name)) :
    s.serve (.rd addr name) = .refused .registerAccessOutsidePort := by
  simp only [State.serve, portOffset_eq_none.mpr h]

theorem State.serve_mw_outside {s : State} {addr : Nat} {bytes : List Byte}
    (h : s.params.memBytes < addr + bytes.length) :
    s.serve (.mw addr bytes) = .fault .hostMemoryOutside := by
  rw [State.serve, hostRangeExists, decide_eq_false (Nat.not_le.mpr h), if_neg Bool.noConfusion]

theorem State.serve_mr_outside {s : State} {addr n name : Nat}
    (h : s.params.memBytes < addr + n) :
    s.serve (.mr addr n name) = .fault .hostMemoryOutside := by
  rw [State.serve, hostRangeExists, decide_eq_false (Nat.not_le.mpr h), if_neg Bool.noConfusion]

/-- Settles O41: each access that does not exist has the stop of its kind. -/
theorem inexpressibleAccessStops : Obligations.InexpressibleAccessStops := by
  unfold Obligations.InexpressibleAccessStops
  exact fun s a w name n bytes =>
    ⟨fun h => ⟨State.serve_wr_of_not_exists h, State.serve_rd_of_not_exists h⟩,
      State.serve_mw_outside, State.serve_mr_outside⟩

theorem State.serve_of_not_exists {s : State} {op : HostOp} (h : ¬hostOpExists s.params op) :
    s.serve op = .fault .hostMemoryOutside ∨
      s.serve op = .refused .registerAccessOutsidePort := by
  cases op with
  | wr => exact .inr (State.serve_wr_of_not_exists h)
  | rd => exact .inr (State.serve_rd_of_not_exists h)
  | mw => exact .inl (State.serve_mw_outside (Nat.not_le.mp h))
  | mr => exact .inl (State.serve_mr_outside (Nat.not_le.mp h))
  | wait => exact absurd trivial h

theorem State.Inv.latched_of_busy {s : State} (h : s.Inv) (hbusy : s.busy = true) :
    ∃ i, s.latchedInstr = some i :=
  Option.isSome_iff_exists.mp (h.running.legal (State.busy_eq_true.mp hbusy))

/-- Settles O50: a step stops only in serving a host operation, and one that exists is served; that
the latched opcode is a command's is kept by the invariant. -/
theorem machineNeverStops : Obligations.MachineNeverStops := by
  unfold Obligations.MachineNeverStops
  intro s hinv hexists
  have hserves : ∀ op rest, s.events = .host op :: rest →
      ∃ t, State.serve { s with events := rest } op = .next t :=
    fun op rest hev => State.serve_of_exists (hexists op rest hev)
  cases hstep : step s with
  | next t => exact ⟨t, rfl⟩
  | fault r =>
    obtain ⟨op, rest, hev, hstop⟩ := step_fault hstep
    obtain ⟨t, hserve⟩ := hserves op rest hev
    cases hserve.symm.trans hstop
  | refused r =>
    rcases step_refused hstep with ⟨op, rest, hev, hstop⟩ | ⟨hbusy, hnone, -⟩
    · obtain ⟨t, hserve⟩ := hserves op rest hev
      cases hserve.symm.trans hstop
    · obtain ⟨i, hi⟩ := hinv.latched_of_busy hbusy
      cases hi.symm.trans hnone

theorem State.writeReg_events (s : State) (r : Reg) (w : Word) :
    (s.writeReg r w).events = s.events := by
  cases r
  case cmd =>
    rw [State.writeReg, State.writeCmd]
    split
    · rfl
    · rcases s.accept_cases w with ⟨_, -, h⟩ | ⟨_, -, h, -⟩ <;> rw [h] <;> rfl
  all_goals rfl

theorem State.serve_events {s t : State} {op : HostOp} (h : s.serve op = .next t) :
    t.events = s.events := by
  rcases State.serve_cases h with ⟨_, w, off, -, -, rfl⟩ | ⟨o, rfl⟩ | ⟨addr, bytes, -, -, rfl⟩
  · exact s.writeReg_events (regAt off) w
  · rfl
  · rw [State.hostWrite_eq]

/-- No host operation ends a running command. -/
theorem State.serve_busy {s t : State} {op : HostOp} (h : s.serve op = .next t)
    (hbusy : s.busy = true) : t.busy = true := by
  rcases State.serve_cases h with ⟨_, w, off, -, -, rfl⟩ | ⟨o, rfl⟩ | ⟨addr, bytes, -, -, rfl⟩
  · rcases s.writeReg_cases (regAt off) w with ⟨-, hidle, -⟩ | ⟨-, hwrite⟩ | hagrees
    · cases hbusy.symm.trans hidle
    · rwa [hwrite]
    · rwa [State.busy_congr hagrees.phase]
  · exact hbusy
  · rwa [State.hostWrite_busy]

/-- The three ends of a running command: its completion, reset, or a host operation that does not
exist, which stops the machine. -/
def State.EndsNext (t : State) : Prop :=
  (∃ u i, step t = .next u ∧ u.busy = false ∧ t.latchedInstr = some i ∧
      u.done = !u.err ∧ (u.done = true ↔ rangesFit i t ∧ bufferFits i t)) ∨
    (∃ u rest, t.events = .reset :: rest ∧ step t = .next u ∧ u.busy = false) ∨
    (∃ op rest, t.events = .host op :: rest ∧ ¬hostOpExists t.params op ∧
      (step t = .fault .hostMemoryOutside ∨ step t = .refused .registerAccessOutsidePort))

/-- On its turn the engine completes the command, with DONE exactly where the checks pass. -/
theorem State.endsNext_of_engine {s : State} (hinv : s.Inv) (hbusy : s.busy = true)
    {rest : List Event} (hturn : s.nextTurn = (.engine, { s with events := rest })) :
    s.EndsNext := by
  obtain ⟨i, hi⟩ := hinv.latched_of_busy hbusy
  have hstep : step s = .next (State.checked { s with events := rest } i (bodyOf i)) := by
    rw [step_of_engine hturn hi, exec_eq]
  obtain ⟨hdone, herr⟩ := hinv.clean_of_busy hbusy
  refine .inl ⟨_, i, hstep, ?_⟩
  rw [← fits_withEvents i s rest]
  by_cases hfits : rangesFit i { s with events := rest } ∧ bufferFits i { s with events := rest }
  case pos =>
    rw [State.checked_of_fits (bodyOf i) hfits.1 hfits.2, bodyOf_done, bodyOf_err]
    exact ⟨bodyOf_busy i _, hi, by rw [herr]; rfl, iff_of_true rfl hfits⟩
  case neg =>
    obtain ⟨c, habort⟩ := State.checked_of_not_fits (bodyOf i) hfits
    rw [habort]
    exact ⟨rfl, hi, hdone,
      iff_of_false (fun hset => Bool.noConfusion (hdone.symm.trans hset)) hfits⟩

/-- A running command ends in the next step, or that step serves one host operation beside it. -/
theorem State.endsNext_or_serves {s : State} (hinv : s.Inv) (hbusy : s.busy = true) :
    s.EndsNext ∨ ∃ t op, step s = .next t ∧ t.busy = true ∧ s.events = .host op :: t.events := by
  rcases s.nextTurn_cases with ⟨hidle, -⟩ | ⟨-, hidle, -⟩ | ⟨rest, hev, -⟩ |
    ⟨op, rest, hev, -, hturn⟩ | ⟨-, rest, hturn, -⟩
  · cases hbusy.symm.trans hidle
  · cases hbusy.symm.trans hidle
  · exact .inl (.inr (.inl ⟨_, rest, hev, step_of_events_reset hev, rfl⟩))
  · have hstep := step_of_host hturn
    by_cases hexists : hostOpExists s.params op
    case pos =>
      obtain ⟨t, hserve⟩ := State.serve_of_exists (s := { s with events := rest }) hexists
      exact .inr ⟨t, op, hstep.trans hserve, State.serve_busy hserve hbusy,
        by rw [State.serve_events hserve, hev]⟩
    case neg =>
      have hstop := State.serve_of_not_exists (s := { s with events := rest }) hexists
      rw [← hstep] at hstop
      exact .inl (.inr (.inr ⟨op, rest, hev, hexists, hstop⟩))
  · exact .inl (State.endsNext_of_engine hinv hbusy hturn)

/-- The first of `k + 1` steps can be taken off in front. -/
theorem stepsFrom_succ_of_step {s t : State} (h : step s = .next t) (k : Nat) :
    stepsFrom s (k + 1) = stepsFrom t k := by
  induction k with
  | zero => exact h
  | succ k ih => rw [stepsFrom, ih, ← stepsFrom]

/-- Every step that does not end the command takes one input away, and the invariant is kept. -/
theorem running_ends {events : List Event} {s : State} (hev : s.events = events) (hinv : s.Inv)
    (hbusy : s.busy = true) :
    ∃ k t, k ≤ events.length ∧ stepsFrom s k = .next t ∧ t.busy = true ∧
      t.params = s.params ∧ t.EndsNext := by
  induction events generalizing s with
  | nil =>
    rcases State.endsNext_or_serves hinv hbusy with hends | ⟨t, op, -, -, hcons⟩
    · exact ⟨0, s, Nat.le_refl 0, rfl, hbusy, rfl, hends⟩
    · cases hev.symm.trans hcons
  | cons e events ih =>
    rcases State.endsNext_or_serves hinv hbusy with hends | ⟨t, op, hstep, hrunning, hcons⟩
    · exact ⟨0, s, Nat.zero_le _, rfl, hbusy, rfl, hends⟩
    · obtain ⟨-, htail⟩ := List.cons.inj (hcons.symm.trans hev)
      obtain ⟨k, u, hk, hsteps, hu, hparams, hends⟩ :=
        ih htail ((step_effect hstep).inv hinv) hrunning
      refine ⟨k + 1, u, Nat.succ_le_succ hk, ?_, hu, ?_, hends⟩
      · rw [stepsFrom_succ_of_step hstep, hsteps]
      · rw [hparams, (step_effect hstep).params_eq]

/-- Settles O51: by induction on the inputs to come. -/
theorem runningCommandCompletes : Obligations.RunningCommandCompletes := by
  unfold Obligations.RunningCommandCompletes
  intro s hinv hbusy
  obtain ⟨k, t, hk, hsteps, hrunning, hparams, hends⟩ := running_ends rfl hinv hbusy
  rw [State.EndsNext, hparams] at hends
  exact ⟨k, t, hk, hsteps, hrunning, hends⟩

end Sys2Proof.Machine
end

section
/-! PROOFS. What a successful command leaves (10_state.md R30, 70_reset_and_hazards.md R240), said
once for the six: the destination range holds what settles of the stated output, and `V` holds the
stated words unless the input was raced. -/

namespace Sys2Proof.Machine

open Sys2Proof.Claims

/-- PAD commits the padded message (R105). -/
theorem padBody_eq (s : State) :
    padBody s =
      (State.commitOut { s with engine := s.engine.fillPad (message s) }
        (pad (message s))).complete (padLen s.lat.slen.toNat) := by
  simp only [padBody, Engine.fillPad, message, outLength]

/-- Settles O7: it fails as every command does, and completes on the bytes it commits; `OUT_LEN`
holds every length its 32 bits can. -/
theorem padWritesPaddedMessage : Obligations.PadWritesPaddedMessage := by
  unfold Obligations.PadWritesPaddedMessage
  refine ⟨decode_eq_ok_iff_eq_encode.mpr rfl, fun s => ⟨exec_failsAsStated .pad s,
    fun hranges hbuffer hunraced => ⟨outLenValue (padLen s.lat.slen.toNat) s.draws,
      fun hlt => ?_, ?_⟩⟩⟩
  · rw [outLenValue_of_lt hlt, BitVec.toNat_ofNat, Nat.mod_eq_of_lt hlt]
  · rw [exec_of_fits hranges hbuffer, bodyOf, padBody_eq]
    exact commitOut_complete_endsAs hunraced _ _ _

theorem outputOf_length (i : Instr) (s : State) : (outputOf i s).length = bytesWritten i s := by
  cases i with
  | pad => rw [outputOf, pad_length, message, Memory.readBytes_length, bytesWritten]
  | expand =>
    simp only [outputOf, expand, List.length_append, wordsBytes_length, expandW_length,
      expandWp_length, bytesWritten]
  | init | compress | digest | hmac => rfl

theorem bodyOf_mem_eq (i : Instr) (s : State) :
    (bodyOf i s).mem =
      s.mem.writeBytes s.lat.dst.toNat (s.settledBytes s.lat.dst.toNat 0 (outputOf i s)) := by
  cases i with
  | pad =>
    rw [bodyOf, padBody_eq, State.complete_mem, State.commitOut_mem, State.settledBytes_withEngine,
      outputOf]
  | expand =>
    rw [bodyOf, expandBody_eq, State.complete_mem, State.commitOut_mem,
      State.settledBytes_withEngine, outputOf]
  | init => rfl
  | compress =>
    rw [bodyOf, compressBody_eq, State.complete_mem, State.commitV_mem, outputOf]
    rfl
  | digest =>
    rw [bodyOf, digestBody_eq, State.complete_mem, State.commitOut_mem, State.commitV_mem,
      State.commitV_lat, State.settledBytes_commitV, State.settledBytes_withEngine, outputOf,
      digest]
  | hmac =>
    rw [bodyOf, hmacBody_eq, State.complete_mem, State.commitOut_mem, State.commitV_mem,
      State.commitV_lat, State.settledBytes_commitV, State.settledBytes_withEngine, outputOf]

theorem State.commitV_v_of_no_race {s : State} (h : s.raceIn = false) (e : Engine) (v : Words8) :
    (State.commitV { s with engine := e } v).v = v := if_neg (by rw [h]; exact Bool.noConfusion)

theorem bodyOf_v_eq (i : Instr) {s : State} (h : s.raceIn = false) :
    (bodyOf i s).v = chainingOf i s := by
  cases i with
  | pad => exact bodyOf_v (.inl rfl) s
  | expand => exact bodyOf_v (.inr rfl) s
  | init => rfl
  | compress =>
    rw [bodyOf, compressBody_eq, State.complete_v, State.commitV_v_of_no_race h,
      chainingOf]
  | digest =>
    rw [bodyOf, digestBody_eq, State.complete_v, State.commitOut_v, State.commitV_v_of_no_race h,
      chainingOf]
  | hmac =>
    rw [bodyOf, hmacBody_eq, State.complete_v, State.commitOut_v, State.commitV_v_of_no_race h,
      chainingOf]

theorem bodyOf_mem_of_unraced (i : Instr) {s : State} (h : unraced s) :
    (bodyOf i s).mem = s.mem.writeBytes s.lat.dst.toNat (outputOf i s) := by
  rw [bodyOf_mem_eq, State.settledBytes_of_no_race h.1 h.2]

/-- Byte `k` of the destination range after a command. -/
theorem bodyOf_read_destination {i : Instr} {s : State} {k : Nat} (hwf : s.mem.wf = true)
    (hk : k < bytesWritten i s) :
    (bodyOf i s).mem.read (s.lat.dst.toNat + k) =
      s.settledByte (s.lat.dst.toNat + k) k ((outputOf i s).getD k 0) := by
  have hlen : k < (outputOf i s).length := by rwa [outputOf_length]
  rw [bodyOf_mem_eq, Memory.read_writeBytes_same hwf _ _ _ (by rwa [State.settledBytes_length]),
    State.settledBytes_getD _ _ _ _ _ hlen, Nat.zero_add]

/-- The byte that settles is the host's, where the host wrote it, or the engine's (R240). -/
theorem State.settledByte_cases (s : State) (addr k : Nat) (b : Byte) :
    (addr ∈ s.raceOut ∧ s.settledByte addr k b = s.mem.read addr) ∨
      s.raceIn = true ∨ s.settledByte addr k b = b := by
  rw [State.settledByte, State.engineByte]
  split
  · next h => exact .inl ⟨List.contains_iff_mem.mp (Bool.and_eq_true_iff.mp h).1, rfl⟩
  · split
    · next h => exact .inr (.inl h)
    · exact .inr (.inr rfl)

/-- Settles O14: the checks do not look at the hazards, and the body settles each byte. -/
theorem racedCommandCompletes : Obligations.RacedCommandCompletes := by
  unfold Obligations.RacedCommandCompletes
  intro i s hwf hranges hbuffer
  obtain ⟨-, hphase, hdone, herr, -, -, -, hlen, -⟩ := bodyOf_fields i s
  refine ⟨bodyOf i s, exec_of_fits hranges hbuffer, hdone, herr, hphase, fun hlt => ?_,
    bodyOf_v_eq i, fun k hk => ?_⟩
  · rw [hlen, outLength_eq_bytesWritten, outLenValue_of_lt hlt, BitVec.toNat_ofNat,
      Nat.mod_eq_of_lt hlt]
  · rw [bodyOf_read_destination hwf hk]
    exact s.settledByte_cases _ _ _

theorem slice_readBytes (m : Memory) (a : Nat) {i n len : Nat} (h : i + n ≤ len) :
    slice (m.readBytes a len) i n = m.readBytes (a + i) n := by
  refine List.ext_getElem ?_ fun k hk hk' => ?_
  · rw [slice, List.length_take, List.length_drop, Memory.readBytes_length,
      Memory.readBytes_length]
    omega
  · simp [slice, Memory.readBytes, Nat.add_assoc]

/-- A part of what was written is read back. -/
theorem Memory.readBytes_writeBytes_slice {m : Memory} (hm : m.wf = true) (a : Nat) {i n : Nat}
    {s : List Byte} (h : i + n ≤ s.length) :
    (m.writeBytes a s).readBytes (a + i) n = slice s i n := by
  rw [← slice_readBytes _ a h, Memory.readBytes_writeBytes hm]

/-- `SER` puts word `k` at byte `4k` (R12). -/
theorem be32_slice_ser (v : Words8) :
    ∀ k : Fin 8, be32 (slice (ser v) (4 * k.val) 4) = v.get k
  | 0 => be32_be32Bytes v.a
  | 1 => be32_be32Bytes v.b
  | 2 => be32_be32Bytes v.c
  | 3 => be32_be32Bytes v.d
  | 4 => be32_be32Bytes v.e
  | 5 => be32_be32Bytes v.f
  | 6 => be32_be32Bytes v.g
  | 7 => be32_be32Bytes v.h

/-- DIGEST and HMAC write the words they leave in `V` (R180, R181). -/
theorem outputOf_eq_ser {i : Instr} (h : i = .digest ∨ i = .hmac) (s : State) :
    outputOf i s = ser (chainingOf i s) := by
  rcases h with rfl | rfl <;> rfl

/-- Settles O15: the output is `SER(V)`. -/
theorem chainingWordsAreOutputWords : Obligations.ChainingWordsAreOutputWords := by
  unfold Obligations.ChainingWordsAreOutputWords
  intro i s hi hwf hunraced hranges hbuffer
  refine ⟨bodyOf i s, exec_of_fits hranges hbuffer, fun k => ?_⟩
  have hk : 4 * k.val + 4 ≤ (ser (chainingOf i s)).length := by
    rw [ser_length]
    omega
  rw [bodyOf_v_eq i hunraced.1, bodyOf_mem_of_unraced i hunraced, outputOf_eq_ser hi,
    Memory.readBytes_writeBytes_slice hwf _ hk, be32_slice_ser]

/-- `BE32_BYTES` of the word of four bytes is the four bytes. -/
theorem be32Bytes_be32_of_length : ∀ {s : List Byte}, s.length = 4 → be32Bytes (be32 s) = s
  | [a, b, c, d], _ => be32Bytes_be32 a b c d

theorem slice_length {s : List Byte} {i n : Nat} (h : i + n ≤ s.length) :
    (slice s i n).length = n := by
  rw [slice, List.length_take, List.length_drop]
  omega

/-- The slices of four bytes, side by side. -/
theorem flatMap_slice_eq_take (s : List Byte) (n : Nat) :
    (List.range n).flatMap (fun i => slice s (4 * i) 4) = s.take (4 * n) := by
  induction n with
  | zero => rfl
  | succ n ih => rw [List.range_succ, List.flatMap_append, ih, List.flatMap_singleton, slice,
      Nat.mul_succ, List.take_add]

theorem wordsBytes_blockWords {blk : List Byte} (h : blk.length = 64) :
    wordsBytes (blockWords blk) = blk := by
  have hslices : ∀ i ∈ List.range 16, be32Bytes (be32 (slice blk (4 * i) 4)) =
      slice blk (4 * i) 4 := fun i hi => be32Bytes_be32_of_length (slice_length (by
    have hlt := List.mem_range.mp hi
    omega))
  rw [wordsBytes, blockWords, List.flatMap_map, List.flatMap_def, List.map_congr_left hslices,
    ← List.flatMap_def, flatMap_slice_eq_take, List.take_of_length_le (by omega)]

/-- The bytes of `W` begin with the block it was expanded from (R122). -/
theorem wordsBytes_expandW {blk : List Byte} (h : blk.length = 64) :
    ∃ rest, wordsBytes (expand blk).1 = blk ++ rest := by
  obtain ⟨ws, hws⟩ := prefix_extendW 52 (blockWords blk)
  refine ⟨wordsBytes ws, ?_⟩
  rw [expand, expandW, ← hws, wordsBytes, List.flatMap_append, ← wordsBytes,
    wordsBytes_blockWords h, ← wordsBytes]

/-- Settles O16: the block is read before the first byte is written, so an overlap changes
nothing. -/
theorem expandRepeatsItsBlock : Obligations.ExpandRepeatsItsBlock := by
  unfold Obligations.ExpandRepeatsItsBlock
  intro s hwf hunraced hranges
  refine ⟨bodyOf .expand s, exec_of_fits hranges trivial, ?_⟩
  have hblock : (block s).length = 64 := Memory.readBytes_length _ _ _
  have hout : 0 + 64 ≤ (outputOf .expand s).length := by
    rw [outputOf_length, bytesWritten]
    decide
  obtain ⟨rest, hrest⟩ := wordsBytes_expandW hblock
  rw [bodyOf_mem_of_unraced .expand hunraced]
  refine (Memory.readBytes_writeBytes_slice hwf _ hout).trans ?_
  rw [outputOf, hrest, List.append_assoc]
  exact slice_append_field [] (block s) _ rfl hblock.symm

end Sys2Proof.Machine
end

section
/-! PROOFS. What a command does not depend on (30_encoding.md R86, 43_digest_driver.md R172): the
operands it does not read, and, for DIGEST and HMAC, the chaining words. -/

namespace Sys2Proof.Machine

open Sys2Proof.Claims

theorem bodyOf_withV {i : Instr} (h : i = .digest ∨ i = .hmac) (s : State) (v : Words8) :
    bodyOf i { s with v := v } = bodyOf i s := by
  rcases h with rfl | rfl <;> rfl

/-- Settles O18: the digest starts from IV, and what it commits replaces every word. -/
theorem digestAndHmacIgnoreChainingWords : Obligations.DigestAndHmacIgnoreChainingWords := by
  unfold Obligations.DigestAndHmacIgnoreChainingWords
  intro i s v hi hranges hbuffer
  refine ⟨bodyOf i s, exec_of_fits hranges hbuffer, ?_⟩
  rw [← bodyOf_withV hi s v]
  rcases hi with rfl | rfl <;> exact exec_of_fits hranges hbuffer

/-- `o` and `o'` hold the same value in each operand that the command reads (R86). -/
def Latched.AgreesOnRead (i : Instr) (o o' : Latched) : Prop :=
  match i with
  | .init => True
  | .compress => o.src = o'.src
  | .expand => o.src = o'.src ∧ o.dst = o'.dst
  | .pad => o.src = o'.src ∧ o.slen = o'.slen ∧ o.dst = o'.dst
  | .digest => o.src = o'.src ∧ o.slen = o'.slen ∧ o.dst = o'.dst
  | .hmac =>
    o.src = o'.src ∧ o.slen = o'.slen ∧ o.dst = o'.dst ∧ o.key = o'.key ∧ o.klen = o'.klen

theorem checkedRanges_congr {i : Instr} {o o' : Latched} (h : Latched.AgreesOnRead i o o') :
    checkedRanges i o = checkedRanges i o' := by
  cases i <;> simp_all [Latched.AgreesOnRead, checkedRanges, inputRanges, outputRanges, outLength]

theorem bufferNeed_congr {i : Instr} {o o' : Latched} (h : Latched.AgreesOnRead i o o') :
    bufferNeed i o = bufferNeed i o' := by
  cases i <;> simp_all [Latched.AgreesOnRead, bufferNeed]

theorem commandError_congr {i : Instr} {o o' : Latched} (h : Latched.AgreesOnRead i o o')
    (p : Params) : commandError p i o = commandError p i o' := by
  rw [commandError, commandError, checkedRanges_congr h, bufferNeed_congr h]

/-- Of the operands, committing the output takes `dst`, and completion keeps none. -/
theorem State.commitOut_complete_withLat (s : State) {o : Latched} (h : o.dst = s.lat.dst)
    (e : Engine) (out : List Byte) (n : Nat) :
    (State.commitOut { s with lat := o, engine := e } out).complete n =
      (State.commitOut { s with engine := e } out).complete n := by
  have hbytes := State.settledBytes_congr (s := { s with engine := e })
    (s' := { s with lat := o, engine := e }) rfl rfl rfl rfl
  rw [State.commitOut, State.commitOut, hbytes, h]
  rfl

theorem State.commitV_commitOut_complete_withLat (s : State) {o : Latched}
    (h : o.dst = s.lat.dst) (e : Engine) (v : Words8) (out : List Byte) (n : Nat) :
    ((State.commitV { s with lat := o, engine := e } v).commitOut out).complete n =
      ((State.commitV { s with engine := e } v).commitOut out).complete n :=
  State.commitOut_complete_withLat (State.commitV { s with engine := e } v) h e out n

/-- A body reads no other operands than its command, and completion keeps none. -/
theorem bodyOf_withLat {i : Instr} {s : State} {o : Latched}
    (h : Latched.AgreesOnRead i o s.lat) : bodyOf i { s with lat := o } = bodyOf i s := by
  cases i with
  | init => rfl
  | compress =>
    have hblock : block { s with lat := o } = block s := by simp only [block, show o.src = _ from h]
    rw [bodyOf, compressBody_eq, compressBody_eq, hblock]
    rfl
  | expand =>
    obtain ⟨hsrc, hdst⟩ := h
    have hblock : block { s with lat := o } = block s := by simp only [block, hsrc]
    rw [bodyOf, expandBody_eq, expandBody_eq, hblock]
    exact s.commitOut_complete_withLat hdst _ _ _
  | pad =>
    obtain ⟨hsrc, hslen, hdst⟩ := h
    have hmessage : message { s with lat := o } = message s := by simp only [message, hsrc, hslen]
    rw [bodyOf, padBody_eq, padBody_eq, hmessage, hslen]
    exact s.commitOut_complete_withLat hdst _ _ _
  | digest =>
    obtain ⟨hsrc, hslen, hdst⟩ := h
    have hmessage : message { s with lat := o } = message s := by simp only [message, hsrc, hslen]
    rw [bodyOf, digestBody_eq, digestBody_eq, hmessage]
    exact s.commitV_commitOut_complete_withLat hdst _ _ _ _
  | hmac =>
    obtain ⟨hsrc, hslen, hdst, hkey, hklen⟩ := h
    have hmessage : message { s with lat := o } = message s := by simp only [message, hsrc, hslen]
    have hbytes : keyBytes { s with lat := o } = keyBytes s := by simp only [keyBytes, hkey, hklen]
    rw [bodyOf, hmacBody_eq, hmacBody_eq, hmessage, hbytes]
    exact s.commitV_commitOut_complete_withLat hdst _ _ _ _

theorem exec_withLat {i : Instr} {s : State} {o : Latched} (h : Latched.AgreesOnRead i o s.lat) :
    exec i { s with lat := o } = exec i s := by
  rw [exec_eq, exec_eq, State.checked, State.checked, commandError_congr h]
  cases commandError s.params i s.lat with
  | some c => rfl
  | none => exact congrArg Host.Outcome.next (bodyOf_withLat h)

/-- Settles O19: the hypotheses of each clause are the operands its command reads. -/
theorem unreadOperandsAreIgnored : Obligations.UnreadOperandsAreIgnored := by
  unfold Obligations.UnreadOperandsAreIgnored
  exact fun s o => ⟨exec_withLat trivial, fun hsrc => exec_withLat hsrc,
    fun hsrc hdst => exec_withLat ⟨hsrc, hdst⟩,
    fun hsrc hslen hdst => ⟨exec_withLat ⟨hsrc, hslen, hdst⟩, exec_withLat ⟨hsrc, hslen, hdst⟩⟩,
    fun hsrc hslen hdst hkey hklen => exec_withLat ⟨hsrc, hslen, hdst, hkey, hklen⟩⟩

end Sys2Proof.Machine
end

section
/-! PROOFS. COMPRESS block by block (42_compression.md R148, R151): each run folds the block that
stands at its source, so a run over the blocks of a string folds the string. -/

namespace Sys2Proof.Machine

open Sys2Proof.Claims

theorem exec_compress_of_unraced {s : State} (hranges : rangesFit .compress s)
    (hunraced : unraced s) :
    ∃ t, exec .compress s = .next t ∧ t.v = cf s.v (block s) ∧ t.mem = s.mem ∧
      t.params = s.params ∧ unraced t := by
  obtain ⟨-, hcompress⟩ := compressFoldsBlock
  obtain ⟨lat, e, d, hexec⟩ := (hcompress s).2 hranges hunraced
  exact ⟨_, hexec, rfl, rfl, rfl, rfl, rfl⟩

theorem Params.memBytes_le_of_wf {p : Params} (h : p.wf = true) : p.memBytes ≤ 2 ^ 32 := by
  simp only [Params.wf, Params.memBytesWf, Bool.and_eq_true, decide_eq_true_eq] at h
  exact h.1.2

/-- The runs on the first `k` blocks of the string `p` fold them into `V`, and leave what the next
run needs: the memory, the parameters, and no race. -/
theorem compressBlocks_folds {s : State} {addr k : Nat} {p : List Byte}
    (hwf : s.params.wf = true) (hunraced : unraced s)
    (hmem : addr + p.length ≤ s.params.memBytes) (hread : s.mem.readBytes addr p.length = p)
    (hk : 64 * k ≤ p.length) :
    ∃ t, compressBlocks s addr k = .next t ∧
      t.v = (List.range k).foldl (fun v b => cf v (blockOf p b)) s.v ∧ t.mem = s.mem ∧
      t.params = s.params ∧ unraced t := by
  induction k with
  | zero => exact ⟨s, rfl, rfl, rfl, rfl, hunraced⟩
  | succ k ih =>
    obtain ⟨t, hblocks, hv, htmem, htparams, htrace⟩ := ih (by omega)
    have hsize := Params.memBytes_le_of_wf hwf
    have hsrc : (BitVec.ofNat 32 (addr + 64 * k)).toNat = addr + 64 * k := by
      rw [BitVec.toNat_ofNat, Nat.mod_eq_of_lt (by omega)]
    have hblock : t.mem.readBytes (addr + 64 * k) 64 = blockOf p k := by
      rw [htmem, blockOf, ← slice_readBytes s.mem addr (by omega), hread]
    obtain ⟨u, hexec, huv, humem, huparams, hurace⟩ := exec_compress_of_unraced
      (s := { t with lat := { t.lat with src := BitVec.ofNat 32 (addr + 64 * k) } })
      (by simp only [rangesFit, hsrc, htparams]; omega) htrace
    refine ⟨u, ?_, ?_, humem.trans htmem, huparams.trans htparams, hurace⟩
    · rw [compressBlocks, hblocks]
      exact hexec
    · rw [huv, block, hsrc, hblock, hv, List.range_succ, List.foldl_append]
      rfl

/-- Settles O17: the blocks of `pad(m)` folded from IV are its digest state. -/
theorem compressChainIsDigest : Obligations.CompressChainIsDigest := by
  unfold Obligations.CompressChainIsDigest
  intro s addr m hwf hunraced hv hmem hread
  rw [← pad_length] at hmem hread ⊢
  obtain ⟨t, hblocks, htv, htmem, -⟩ :=
    compressBlocks_folds hwf hunraced hmem hread (Nat.mul_div_le _ 64)
  exact ⟨t, hblocks, by rw [htv, hv, digestState, foldBlocks], htmem⟩

end Sys2Proof.Machine
end

section
/-! PROOFS. The encoder beside the decoder (30_encoding.md R81, R84, R85). -/

namespace Sys2Proof.Machine

theorem commandWordWf_encode (i : Instr) : commandWordWf (encode i) = true := by
  cases i with
  | pad => exact Laws.EncodesLegal.pad.1
  | expand => exact Laws.EncodesLegal.expand.1
  | init => exact Laws.EncodesLegal.init.1
  | compress => exact Laws.EncodesLegal.compress.1
  | digest => exact Laws.EncodesLegal.digest.1
  | hmac => exact Laws.EncodesLegal.hmac.1

/-- Settles O2: both directions are the one fact that the decoder answers a command for exactly its
own word. -/
theorem decodeInvertsEncode : Obligations.DecodeInvertsEncode := by
  unfold Obligations.DecodeInvertsEncode
  exact ⟨fun i => ⟨decode_eq_ok_iff_eq_encode.mpr rfl, commandWordWf_encode i⟩,
    fun c i => decode_eq_ok_iff_eq_encode.mp⟩

/-- Settles O3: eight words, decoded one by one. -/
theorem tableWordsDecode : Obligations.TableWordsDecode := by
  unfold Obligations.TableWordsDecode
  exact ⟨rfl, rfl, rfl, rfl, rfl, rfl, rfl, rfl⟩

end Sys2Proof.Machine
end

section
/-! PROOFS. The engine's pipeline and the keys of HMAC (42_compression.md R146, 43_digest_driver.md
R170 to R178): HMAC reads its key through the effective key, and pads three strings of which the
outer one is never the longest. -/

namespace Sys2Proof.Machine

/-- Settles O28: the three pipelines, each from any internal state. -/
theorem engineComputesSm3 : Obligations.EngineComputesSm3 := by
  unfold Obligations.EngineComputesSm3
  exact fun e => ⟨e.compress_eq_cf, e.digest_fst, e.hmac_fst⟩

/-- Settles O29: one block, evaluated. -/
theorem digestOfAbc : Obligations.DigestOfAbc := by
  unfold Obligations.DigestOfAbc
  decide +kernel

theorem effectiveKey_of_long {key : List Byte} (h : 64 < key.length) :
    effectiveKey key = digest key := if_pos h

theorem effectiveKey_of_short {key : List Byte} (h : key.length ≤ 64) : effectiveKey key = key :=
  if_neg (Nat.not_lt.mpr h)

/-- A key takes part in HMAC through its effective key alone (R173, R174). -/
theorem hmac_congr {key key' : List Byte} (h : effectiveKey key = effectiveKey key')
    (m : List Byte) : hmac key m = hmac key' m := by
  rw [hmac, hmac, hmacState, hmacState, hmacInner, hmacInner, h]

/-- Settles O20: a digest has 32 bytes, so as a key it is not hashed again. -/
theorem collapsedKeysGiveSameHmac : Obligations.CollapsedKeysGiveSameHmac := by
  unfold Obligations.CollapsedKeysGiveSameHmac
  intro k m hk
  have hshort : (digest k).length ≤ 64 := by
    rw [digest_length]
    decide
  refine ⟨hmac_congr ?_ m, fun k' hk' hsame => hmac_congr ?_ m⟩
  · rw [effectiveKey_of_long hk, effectiveKey_of_short hshort]
  · rw [effectiveKey_of_long hk, effectiveKey_of_long hk', hsame]

theorem pad_keyPad_append_length (x : Byte) (key m : List Byte) :
    (pad (keyPad x key ++ m)).length = padLen (64 + m.length) := by
  rw [pad_length, List.length_append, keyPad_length]

/-- The outer string has two blocks, and the inner one has no fewer. -/
theorem hmacNeed_eq (klen slen : Nat) :
    hmacNeed klen slen = max (if 64 < klen then padLen klen else 0) (padLen (64 + slen)) := by
  have houter : 128 ≤ padLen (64 + slen) := by
    rw [padLen_eq]
    omega
  rw [hmacNeed, Nat.max_assoc, Nat.max_eq_left houter]

theorem padLen_inner_le_hmacNeed (klen slen : Nat) : padLen (64 + slen) ≤ hmacNeed klen slen := by
  rw [hmacNeed_eq]
  exact Nat.le_max_right _ _

/-- Settles O27: the key counts where it is hashed, and the longer of the two remaining strings is
the need. -/
theorem hmacNeedIsLongestPaddedString : Obligations.HmacNeedIsLongestPaddedString := by
  unfold Obligations.HmacNeedIsLongestPaddedString
  intro key m
  have houter : padLen (64 + (hmacInner key m).length) = 128 := by
    rw [hmacInner, digest_length, padLen_eq]
  rw [pad_keyPad_append_length, pad_keyPad_append_length, pad_length, houter]
  refine ⟨fun hlong => ?_, padLen_inner_le_hmacNeed _ _, Nat.le_max_right _ _, ?_⟩
  · rw [hmacNeed_eq, if_pos hlong]
    exact Nat.le_max_left _ _
  · rw [hmacNeed_eq]
    by_cases hlong : 64 < key.length
    case pos =>
      rw [if_pos hlong]
      rcases Nat.le_total (padLen key.length) (padLen (64 + m.length)) with hinner | hkey
      · exact .inl (Nat.max_eq_right hinner)
      · exact .inr ⟨hlong, Nat.max_eq_left hkey⟩
    case neg =>
      rw [if_neg hlong]
      exact .inl (Nat.max_eq_right (Nat.zero_le _))

end Sys2Proof.Machine
end

section
/-! PROOFS. The result registers (10_state.md R30, R36, R47) and the data memory as the host sees it
(20_memory.md R61, 70_reset_and_hazards.md R231, R240): what the running command's ranges are, in
the words of the claims, decides what is noted, what is read and what reset may touch. -/

namespace Sys2Proof.Machine

open Sys2Proof.Claims

theorem regAt_v : ∀ i : Fin 8, regAt (0x40 + 4 * i.val) = .v i := by
  decide

theorem State.readReg_outLen_of_idle {s : State} (hidle : s.phase = .idle) :
    s.readReg .outLen = s.outLen := by
  rw [State.readReg, State.busy_eq_false.mpr hidle, if_neg Bool.noConfusion]

theorem State.readReg_v_of_idle {s : State} (hidle : s.phase = .idle) (i : Fin 8) :
    s.readReg (.v i) = s.v.get i := by
  rw [State.readReg, State.busy_eq_false.mpr hidle, if_neg Bool.noConfusion]

/-- Settles O39: the registers stand at these offsets, and no write reaches them. -/
theorem resultRegistersAreReadOnly : Obligations.ResultRegistersAreReadOnly := by
  unfold Obligations.ResultRegistersAreReadOnly
  refine fun s w name => ⟨s.serve_wr_offset (by decide) (by decide) w,
    s.serve_rd_offset (off := 0x00) (by decide) (by decide) name,
    ⟨_, s.serve_rd_offset (by decide) (by decide) name, State.readReg_outLen_of_idle⟩,
    fun i => ?_⟩
  have hlt : 0x40 + 4 * i.val < 0x100 := by omega
  have halign : (0x40 + 4 * i.val) % 4 = 0 := by omega
  rw [s.serve_wr_offset hlt halign, s.serve_rd_offset hlt halign, regAt_v]
  exact ⟨rfl, _, rfl, fun hidle => State.readReg_v_of_idle hidle i⟩

theorem State.serve_mw_of_le {s : State} {addr : Nat} {bytes : List Byte}
    (h : addr + bytes.length ≤ s.params.memBytes) :
    s.serve (.mw addr bytes) = .next (s.hostWrite addr bytes) := by
  rw [State.serve, hostRangeExists, decide_eq_true h, if_pos rfl]

theorem State.serve_mr_of_le {s : State} {addr n : Nat} (h : addr + n ≤ s.params.memBytes)
    (name : Nat) :
    s.serve (.mr addr n name) = .next (s.observe (.mem name (s.hostReadBytes addr n))) := by
  rw [State.serve, hostRangeExists, decide_eq_true h, if_pos rfl]

theorem Range.has_eq_true {r : Range} {x : Nat} :
    r.has x = true ↔ r.1.toNat ≤ x ∧ x < r.1.toNat + r.2 := by
  rw [Range.has, Bool.and_eq_true, decide_eq_true_iff, decide_eq_true_iff]

theorem State.readsByte_iff_isSource {s : State} {i : Instr} (h : s.latchedInstr = some i)
    (x : Nat) : s.readsByte x = true ↔ isSource i s x := by
  rw [State.readsByte, h]
  cases i <;> simp [inputRanges, isSource, Range.has_eq_true]

theorem State.writesByte_iff_isDestination {s : State} {i : Instr} (h : s.latchedInstr = some i)
    (x : Nat) : s.writesByte x = true ↔ isDestination i s x := by
  rw [State.writesByte, h]
  cases i <;>
    simp [outputRanges, outLength, isDestination, bytesWritten, Range.has_eq_true]

/-- A byte outside a running command's destination range is read from memory (R240). -/
theorem State.hostReadByte_eq_read {s : State} {x : Nat}
    (h : s.phase = .idle ∨ ∀ i, s.latchedInstr = some i → ¬isDestination i s x) (k : Nat) :
    s.hostReadByte x k = s.mem.read x := by
  refine if_neg fun hhidden => ?_
  obtain ⟨hbusy, hwrites⟩ := Bool.and_eq_true_iff.mp hhidden
  rcases h with hidle | houtside
  · cases hbusy.symm.trans (State.busy_eq_false.mpr hidle)
  · cases hlatched : s.latchedInstr with
    | none => rw [State.writesByte, hlatched] at hwrites; cases hwrites
    | some i =>
      exact houtside i hlatched ((State.writesByte_iff_isDestination hlatched x).mp hwrites)

theorem State.serve_mr_of_idle {s : State} (hidle : s.phase = .idle) {addr n : Nat}
    (h : addr + n ≤ s.params.memBytes) (name : Nat) :
    s.serve (.mr addr n name) = .next (s.observe (.mem name (s.mem.readBytes addr n))) := by
  have hbytes : s.hostReadBytes addr n = s.mem.readBytes addr n :=
    List.map_congr_left fun k _ => State.hostReadByte_eq_read (.inl hidle) k
  rw [State.serve_mr_of_le h, hbytes]

/-- Settles O42: while idle a write is noted nowhere and every byte is read from memory. -/
theorem hostReadsBackItsWrite : Obligations.HostReadsBackItsWrite := by
  unfold Obligations.HostReadsBackItsWrite
  intro s a bytes name hwf hidle hrange
  refine ⟨{ s with mem := s.mem.writeBytes a bytes }, ?_, rfl, ?_,
    fun x => Memory.read_writeBytes_other s.mem bytes⟩
  · rw [State.serve_mw_of_le hrange, State.hostWrite_of_idle hidle]
  · have hread := State.serve_mr_of_idle (s := { s with mem := s.mem.writeBytes a bytes }) hidle
      hrange name
    rwa [Memory.readBytes_writeBytes hwf] at hread

/-- The bytes from `a` up, as a range of addresses. -/
theorem exists_offset_iff {a n : Nat} {p : Nat → Prop} :
    (∃ k, k < n ∧ p (a + k)) ↔ ∃ x, a ≤ x ∧ x < a + n ∧ p x := by
  constructor
  · rintro ⟨k, hk, hp⟩
    exact ⟨a + k, by omega, by omega, hp⟩
  · rintro ⟨x, hlow, hhigh, hp⟩
    refine ⟨x - a, by omega, ?_⟩
    rwa [Nat.add_sub_cancel' hlow]

/-- A host write is noted where it touches a byte the running command reads (R240). -/
theorem State.hostWrite_raceIn_iff {s : State} {i : Instr} (hrun : s.phase = .run)
    (hi : s.latchedInstr = some i) (a : Nat) (bytes : List Byte) :
    (s.hostWrite a bytes).raceIn = true ↔
      s.raceIn = true ∨ ∃ x, a ≤ x ∧ x < a + bytes.length ∧ isSource i s x := by
  rw [State.hostWrite, State.noteHostWrite, State.busy_eq_true.mpr hrun, if_pos rfl,
    ← exists_offset_iff]
  simp [State.readsByte_iff_isSource hi]

/-- The bytes it writes in the destination range are listed (R240). -/
theorem State.mem_hostWrite_raceOut_iff {s : State} {i : Instr} (hrun : s.phase = .run)
    (hi : s.latchedInstr = some i) (a : Nat) (bytes : List Byte) (x : Nat) :
    x ∈ (s.hostWrite a bytes).raceOut ↔
      x ∈ s.raceOut ∨ (a ≤ x ∧ x < a + bytes.length ∧ isDestination i s x) := by
  have hwritten : (∃ k, k < bytes.length ∧ a + k = x) ↔ a ≤ x ∧ x < a + bytes.length := by
    simp [exists_offset_iff (p := (· = x))]
  rw [State.hostWrite, State.noteHostWrite, State.busy_eq_true.mpr hrun, if_pos rfl, ← and_assoc,
    ← hwritten, ← State.writesByte_iff_isDestination hi]
  simp [or_comm]

/-- Settles O43: the two notes, and nothing else. -/
theorem hostWriteDuringCommand : Obligations.HostWriteDuringCommand := by
  unfold Obligations.HostWriteDuringCommand
  intro s i a bytes hrun hi hrange
  refine ⟨(s.hostWrite a bytes).raceIn, (s.hostWrite a bytes).raceOut, ?_,
    State.hostWrite_raceIn_iff hrun hi a bytes, State.mem_hostWrite_raceOut_iff hrun hi a bytes⟩
  rw [State.serve_mw_of_le hrange, ← State.hostWrite_eq]

/-- Settles O44: each byte by itself. -/
theorem hostReadDuringCommand : Obligations.HostReadDuringCommand := by
  unfold Obligations.HostReadDuringCommand
  intro s a n name hrange
  refine ⟨s.hostReadBytes a n, State.serve_mr_of_le hrange name, ?_, fun k hk houtside => ?_⟩
  · rw [State.hostReadBytes, List.length_map, List.length_range]
  · rw [← State.hostReadByte_eq_read houtside k, State.hostReadBytes, List.getD_eq_getElem?_getD,
      List.getElem?_map, List.getElem?_range hk, Option.map_some, Option.getD_some]

/-- Settles O46: reset writes only for a command that passes its checks, and as many bytes as that
command would have. -/
theorem resetKeepsMemory : Obligations.ResetKeepsMemory := by
  unfold Obligations.ResetKeepsMemory
  intro s
  rcases s.memAfterReset_cases with hmem | ⟨j, hrun, hj, hcheck, hmem⟩
  · rw [State.applyReset_mem, hmem]
    exact ⟨fun _ => rfl, fun i _ _ => ⟨fun _ _ => rfl, fun _ => rfl, rfl, rfl⟩⟩
  · refine ⟨fun hidle => (nomatch hidle.symm.trans hrun), fun i _ hi => ?_⟩
    obtain rfl : i = j := Option.some.inj (hi.symm.trans hj)
    refine ⟨fun a houtside => ?_, fun hfits => ?_, rfl, rfl⟩
    · rw [State.applyReset_mem, hmem]
      refine Memory.read_writeBytes_other _ _ ?_
      rwa [abandonedBytes_length, outLength_eq_bytesWritten]
    · exact absurd (commandError_eq_none_iff_fits.mp hcheck) hfits

end Sys2Proof.Machine
end
